-- ==== Sys2Proof/Word.lean ====
section
/-!
DEFINITION. The words of the block (spec/00_scope.md R7; spec/30_encoding.md R80, R83) and the pins of its command port
(spec/10_state.md R44).
-/

namespace Sys2Proof

/-- An 8-bit opcode, bits 39:32 of a command word (R80). -/
abbrev Opcode := BitVec 8

/-- The 32-bit unsigned operand, bits 31:0 of a command word (R80, R83). -/
abbrev Operand := BitVec 32

/-- A 40-bit command word (R80). It moves as one whole number: it has no bytes and no byte order (R64). -/
abbrev CommandWord := BitVec 40

/-- A 32-bit unsigned register value (`VALUE_BITS` of R6). -/
abbrev Word := BitVec 32

/-- A 64-bit unsigned register value (`COUNT_BITS` of R6). -/
abbrev Wide := BitVec 64

/-- What the host drives on the input pins of R44 during one step of the transaction-level model:
the reset input, the valid half of the handshake, and the command word. -/
structure HostInput where
  rst : Bool
  cmdValid : Bool
  cmd : CommandWord
  deriving DecidableEq, Repr

/-- The host presents the command word `w`, with `rst` released. -/
def HostInput.command (w : CommandWord) : HostInput := { rst := false, cmdValid := true, cmd := w }

/-- The host asserts `rst` and presents nothing. -/
def HostInput.reset : HostInput := { rst := true, cmdValid := false, cmd := 0 }

/-- The host presents nothing. -/
def HostInput.idle : HostInput := { rst := false, cmdValid := false, cmd := 0 }

end Sys2Proof
end

