-- ==== Sys2Proof/Syntax.lean ====
section
/-!
DEFINITION. The command set of spec/30_encoding.md R84: one constructor for each row of spec/opcode_table.json.
-/

namespace Sys2Proof

/-- The nine commands. Format E (R81) carries its 32-bit operand. Format Z (R82) carries nothing: its operand bits are
don't-care and are recorded nowhere. -/
inductive Instr where
  /-- define the field `frequency` (R101) -/
  | frequency (v : Operand)
  /-- define the field `rate` (R102) -/
  | rate (v : Operand)
  /-- define the field `len` (R103) -/
  | len (v : Operand)
  /-- define the field `repeats` (R104) -/
  | repeats (v : Operand)
  /-- define the field `skip` (R105) -/
  | skip (v : Operand)
  /-- define the field `type`, the output width in bits (R106) -/
  | type (v : Operand)
  /-- validate, compute the period table, arm the stream (R120) -/
  | gen
  /-- deliver one sample and advance the phase accumulator (R160) -/
  | next
  /-- return to the reset state (R161) -/
  | clear
  deriving DecidableEq, Repr

end Sys2Proof
end

