-- ==== Sys2Proof/WellFormed.lean ====
section
/-!
DEFINITION. Well-formedness of what the host hands the block.
-/

namespace Sys2Proof

/-- Every command is well formed: a numeric operand may be any 32-bit number (R81, R83), an operand of `type` outside
8, 16, 32 is "an InvalidLiteral error, not a decode failure" (R81), and format Z has no operand to check (R82). -/
def Instr.wf : Instr → Bool
  | .frequency _ => true
  | .rate _ => true
  | .len _ => true
  | .repeats _ => true
  | .skip _ => true
  | .type _ => true
  | .gen => true
  | .next => true
  | .clear => true

/-- The host's obligation on one slot of pins: `rst` is released before a command is presented
(spec/70_reset_and_hazards.md R217, row "reset"). The step does not rely on it (log entry 8). -/
def HostInput.wf (i : HostInput) : Bool := !(i.rst && i.cmdValid)

end Sys2Proof
end

