-- ==== Sys2Proof/Decode.lean ====
section
/-!
DEFINITION. The decoder and the encoder of the 40-bit command word (spec/30_encoding.md R80 to R87).
-/

namespace Sys2Proof

/-- Why a command word names no command: its opcode is one of the 247 reserved ones (R85). The word's two parts are kept,
because UnknownField records them (spec/60_exceptions.md R179). -/
inductive DecodeRefusal where
  | reserved (op : Opcode) (operand : Operand)
  deriving DecidableEq, Repr

/-- `op` = `cmd[39:32]` (R80). -/
def opcodeOf (w : CommandWord) : Opcode := w.extractLsb' 32 8

/-- `operand` = `cmd[31:0]`, unsigned, not extended, scaled or shifted (R80, R83). -/
def operandOf (w : CommandWord) : Operand := w.extractLsb' 0 32

/-- `{op, operand}`: the word with these two parts (R80, R92). -/
def commandWord (op : Opcode) (v : Operand) : CommandWord := op ++ v

/-- The decoder (R87): total on command words; a reserved opcode is rejected by name. Mode gating (R86) is not decoding and
stands in Machine/Ops.lean. -/
def decode (w : CommandWord) : Except DecodeRefusal Instr :=
  if opcodeOf w = 0x01 then .ok (.frequency (operandOf w))
  else if opcodeOf w = 0x02 then .ok (.rate (operandOf w))
  else if opcodeOf w = 0x03 then .ok (.len (operandOf w))
  else if opcodeOf w = 0x04 then .ok (.repeats (operandOf w))
  else if opcodeOf w = 0x05 then .ok (.skip (operandOf w))
  else if opcodeOf w = 0x06 then .ok (.type (operandOf w))
  else if opcodeOf w = 0x10 then .ok .gen
  else if opcodeOf w = 0x11 then .ok .next
  else if opcodeOf w = 0x1F then .ok .clear
  else .error (.reserved (opcodeOf w) (operandOf w))

/-- The opcode of each command (R84). -/
def Instr.opcode : Instr → Opcode
  | .frequency _ => 0x01
  | .rate _ => 0x02
  | .len _ => 0x03
  | .repeats _ => 0x04
  | .skip _ => 0x05
  | .type _ => 0x06
  | .gen => 0x10
  | .next => 0x11
  | .clear => 0x1F

/-- The operand bits of each command; format Z emits 0 there (R80, R82). -/
def Instr.operand : Instr → Operand
  | .frequency v => v
  | .rate v => v
  | .len v => v
  | .repeats v => v
  | .skip v => v
  | .type v => v
  | .gen => 0
  | .next => 0
  | .clear => 0

/-- Format E of R81: the commands that use their operand. -/
def Instr.usesOperand : Instr → Bool
  | .frequency _ => true
  | .rate _ => true
  | .len _ => true
  | .repeats _ => true
  | .skip _ => true
  | .type _ => true
  | .gen => false
  | .next => false
  | .clear => false

/-- The encoder: the encoding of `m: v` is `{op(m), v}` (R92). -/
def encode (i : Instr) : CommandWord := commandWord i.opcode i.operand

/-- The reserved opcodes as R85 lists them. -/
def isReserved (op : Opcode) : Bool :=
  op == 0x00 || (0x07 ≤ op && op ≤ 0x0F) || (0x12 ≤ op && op ≤ 0x1E) || 0x20 ≤ op

/-- The command word whose low `nbits` bits are those of `w`, the others 0 (log entry 11). -/
def tableWord (nbits w : Nat) : CommandWord := BitVec.ofNat 40 (w % 2 ^ nbits)

/-- The instruction the decoder reads from the bits `w` of an opcode-table row of `nbits` bits. -/
def decodeTableWord (nbits w : Nat) : Option Instr :=
  match decode (tableWord nbits w) with
  | .ok i => some i
  | .error _ => none

end Sys2Proof
end

