-- ==== Sys2Proof/Config.lean ====
section
/-!
DEFINITION. The implementation parameters of spec/00_scope.md R6, at the values this hardware takes. The spec leaves no
value open at run time (spec/93_implementation_defined.md, opening of part 1), so there is no free value here.
`VALUE_BITS`, `COUNT_BITS`, `CMD_BITS` and `SAMPLE_PORT_BITS` are the widths 32, 64, 40 and 32 of the types in Word.lean
and Machine/State.lean; `WIDTH_DEFAULT` is 16, in `State.reset`; `MAX_PERIOD` is none; `SINE_METHOD` is not observable
(R150).
-/

namespace Sys2Proof.Config

/-- `FREQ_DEFAULT` (R6): the reset value of FREQUENCY, in Hz. -/
def freqDefault : BitVec 32 := 440

/-- `RATE_DEFAULT` (R6): the reset value of RATE, in Hz. -/
def rateDefault : BitVec 32 := 44100

/-- `SKIP_DEFAULT` (R6): the reset value of SKIP. -/
def skipDefault : BitVec 32 := 0

/-- `REPEATS_DEFAULT` (R6): the reset value of REPEATS. -/
def repeatsDefault : BitVec 32 := 1

/-- `FREQ_HAS_DEFAULT` (R6): true, so MissingRequiredField is never raised (R121). -/
def freqHasDefault : Bool := true

/-- `MIN_PERIOD` (R6): a shorter computed period is rejected (R124). -/
def minPeriod : Nat := 2

end Sys2Proof.Config
end

