-- ==== Sys2Proof/Machine/State.lean ====
section
/-!
DEFINITION. The state of the block: every register of spec/10_state.md R20, TABLE (R34), the response port (R45), and what
the host does next on the input pins (R44). All of it is plain data.
-/

namespace Sys2Proof.Machine

/-- The four values of MODE (R21). -/
inductive Mode where
  | config
  | stream
  | done
  | error
  deriving DecidableEq, Repr

/-- The six configuration fields (`FIELDS` of R6). -/
inductive ConfigField where
  | frequency
  | rate
  | len
  | repeats
  | skip
  | type
  deriving DecidableEq, Repr

/-- The closed set of output widths (`WIDTHS` of R6), as the three-valued tag R28 allows (R154;
log entry 6). -/
inductive Width where
  | w8
  | w16
  | w32
  deriving DecidableEq, Repr

/-- The values of ERR_KIND that are ever written, with None (R177). -/
inductive ErrKind where
  | none
  | unknownField
  | duplicateField
  | invalidLiteral
  | nonPositiveValue
  | negativeSkip
  | conflictingLenRepeats
  | frequencyExceedsRate
  | degenerateWave
  | missingRequiredField
  deriving DecidableEq, Repr

/-- One period of samples, held as the two numbers that determine every element: element `i` is
`SineSample(width, period, i)` (R34, R74; log entry 3). -/
structure Table where
  width : Width
  period : Word
  deriving DecidableEq, Repr

/-- TABLE: absent (no elements, no value), or one period of samples (R34, R61). -/
abbrev Memory := Option Table

/-- The canonical form of the memory: a table that exists has at least 3 elements (R129). Two memories in this form that
hold the same elements are equal data, because a table is determined by its width and its period. -/
def Memory.wf : Memory → Bool
  | none => true
  | some t => 3 ≤ t.period.toNat

/-- The response port (R45), which keeps the last response while nothing is presented (log entry 2). -/
structure Response where
  nak : Bool
  valid : Bool
  sample : BitVec 32
  deriving DecidableEq, Repr

/-- Why the model stops with a fault. -/
inductive Fault where
  /-- Raised by `next` when TABLE has no element at PHASE. The spec gives such a read no meaning (R63, R212) and no reachable
  state makes it (log entry 7). Safe: the model stops where the spec says nothing. -/
  | tableElementAbsent
  deriving DecidableEq, Repr

/-- Why the model refuses an instruction. -/
inductive Refusal where
  /-- Raised by an arm of `exec` whose instruction has no meaning yet; no arm is left like that. Safe. -/
  | notModelled (mnemonic : String)
  deriving DecidableEq, Repr

/-- The whole state. Field by field: R21 to R39 in the order of R20, then the response port (R45), then `host`, the model's
own field: the host's coming slots of input pins, the next one first (log entry 1). -/
structure State where
  /-- MODE (R21) -/
  mode : Mode
  /-- SEEN, bit number = field id - 1 (R22) -/
  seen : BitVec 6
  /-- FREQUENCY (R23) -/
  frequency : Word
  /-- RATE (R24) -/
  rate : Word
  /-- LEN (R25) -/
  len : Word
  /-- REPEATS (R26) -/
  repeats : Word
  /-- SKIP (R27) -/
  skip : Word
  /-- WIDTH (R28) -/
  width : Width
  /-- FR_LAST: 0 = `frequency`, 1 = `rate` (R29) -/
  frLast : BitVec 1
  /-- PERIOD (R30) -/
  period : Word
  /-- COUNT (R31) -/
  count : Wide
  /-- PHASE, the phase accumulator (R32) -/
  phase : Word
  /-- INDEX (R33) -/
  index : Wide
  /-- TABLE (R34) -/
  table : Memory
  /-- ERR_KIND (R35) -/
  errKind : ErrKind
  /-- ERR_FIELD; `none` is the id 0 (R36) -/
  errField : Option ConfigField
  /-- ERR_OP (R37) -/
  errOp : Opcode
  /-- ERR_VALUE (R38) -/
  errValue : Word
  /-- ERR_OTHER (R39) -/
  errOther : Word
  /-- the response to the last presented command (R45) -/
  response : Response
  /-- the host's coming input slots (R44) -/
  host : List HostInput
  deriving DecidableEq, Repr

/-- The reset state of R211: every register at the value the spec states, TABLE without value (R212), the response port
idle, and nothing presented by the host (log entry 1). -/
def State.reset : State where
  mode := .config
  seen := 0
  frequency := Config.freqDefault
  rate := Config.rateDefault
  len := 0
  repeats := Config.repeatsDefault
  skip := Config.skipDefault
  width := .w16
  frLast := 0
  period := 0
  count := 0
  phase := 0
  index := 0
  table := none
  errKind := .none
  errField := none
  errOp := 0
  errValue := 0
  errOther := 0
  response := { nak := false, valid := false, sample := 0 }
  host := []

/-- What one command or one step answers. -/
abbrev Result := Host.Outcome State Fault Refusal

end Sys2Proof.Machine
end

