-- ==== Sys2Proof/Machine/Codes.lean ====
section
/-!
DEFINITION. The numbers that stand for the closed tags of the state: modes, field ids, widths and error codes
(spec/10_state.md R21, R22, R28; spec/60_exceptions.md R177, R178).
-/

namespace Sys2Proof.Machine

/-- MODE as its 2-bit number (R21). -/
def Mode.code : Mode → BitVec 2
  | .config => 0
  | .stream => 1
  | .done => 2
  | .error => 3

/-- The id of a field (R178). -/
def ConfigField.id : ConfigField → BitVec 3
  | .frequency => 1
  | .rate => 2
  | .len => 3
  | .repeats => 4
  | .skip => 5
  | .type => 6

/-- The bit of SEEN that belongs to a field: its id less 1 (R22). -/
def ConfigField.bit : ConfigField → Nat
  | .frequency => 0
  | .rate => 1
  | .len => 2
  | .repeats => 3
  | .skip => 4
  | .type => 5

/-- ERR_FIELD as its 3-bit number: 0 for none or unknown (R36, R178). -/
def fieldCode : Option ConfigField → BitVec 3
  | none => 0
  | some f => f.id

/-- The number of bits of a sample of this width (R28). -/
def Width.bits : Width → Nat
  | .w8 => 8
  | .w16 => 16
  | .w32 => 32

/-- WIDTH as its 6-bit number (R28). -/
def Width.code : Width → BitVec 6
  | .w8 => 8
  | .w16 => 16
  | .w32 => 32

/-- ERR_KIND as its 4-bit number (R177). -/
def ErrKind.code : ErrKind → BitVec 4
  | .none => 0
  | .unknownField => 1
  | .duplicateField => 2
  | .invalidLiteral => 3
  | .nonPositiveValue => 4
  | .negativeSkip => 5
  | .conflictingLenRepeats => 6
  | .frequencyExceedsRate => 7
  | .degenerateWave => 8
  | .missingRequiredField => 9

end Sys2Proof.Machine
end

