-- ==== Sys2Proof/Machine/Flags.lean ====
section
/-!
DEFINITION. The flags of the block: the six bits of SEEN and FR_LAST (spec/10_state.md R22, R29, R42).
-/

namespace Sys2Proof.Machine

/-- `SEEN[X]` (R22). -/
def State.seenFlag (s : State) (f : ConfigField) : Bool := s.seen.getLsbD f.bit

/-- `SEEN[X] <- 1` (R100). -/
def State.setSeen (f : ConfigField) (s : State) : State := { s with seen := s.seen ||| BitVec.twoPow 6 f.bit }

/-- The FR_LAST part of an entry command (R100): `frequency` writes 0, `rate` writes 1, the others leave it. -/
def State.noteFrLast (f : ConfigField) (s : State) : State :=
  match f with
  | .frequency => { s with frLast := 0 }
  | .rate => { s with frLast := 1 }
  | .len => s
  | .repeats => s
  | .skip => s
  | .type => s

/-- `zext_32(~SEEN & 0x3F)`: the mask of the fields still unset (R179, R133 (g)). -/
def State.unsetMask (s : State) : Word := (~~~s.seen).setWidth 32

/-- `Blame()` (R125): the field a frequency/rate error is reported against. -/
def State.blame (s : State) : ConfigField :=
  if s.seenFlag .frequency && s.seenFlag .rate then (if s.frLast = 0 then .frequency else .rate)
  else if s.seenFlag .frequency then .frequency
  else if s.seenFlag .rate then .rate
  else .frequency

/-- "The *other* field O is `rate` when B = `frequency` and `frequency` when B = `rate`" (R125), for the two fields
`blame` answers. -/
def otherOfPair (b : ConfigField) : ConfigField := if b = .frequency then .rate else .frequency

/-- The field of `len` and `repeats` whose earlier definition excludes an entry of `f` (R100): the conflicting field. -/
def State.excludedBy (f : ConfigField) (s : State) : Option ConfigField :=
  if f = .len ∧ s.seenFlag .repeats = true then some .repeats
  else if f = .repeats ∧ s.seenFlag .len = true then some .len
  else none

end Sys2Proof.Machine
end

