-- ==== Sys2Proof/Machine/Operands.lean ====
section
/-!
DEFINITION. The operand forms. The numeric operand is the 32-bit number itself (spec/30_encoding.md R83) and needs no
definition; the operand of `type` names a width (spec/40_config_entries.md R106).
-/

namespace Sys2Proof.Machine

/-- The operand of `type`: 8, 16 or 32; the whole 32-bit operand is compared, and any other value names no width (R106). -/
def operandWidth (v : Operand) : Option Width :=
  if v = 8 then some .w8
  else if v = 16 then some .w16
  else if v = 32 then some .w32
  else none

/-- `sext_32(v)`: a signed number on the 32-bit sample port (R8, R160). -/
def sext32 (v : Int) : BitVec 32 := BitVec.ofInt 32 v

end Sys2Proof.Machine
end

