-- ==== Sys2Proof/Machine/Sine.lean ====
section
/-!
DEFINITION. The sine approximator, the amplitude scaler and the quantizer (spec/42_sine_quantizer.md). `sineSample` is the
reference procedure of R146 to R148 over exact fractions, each loop with a bound of its own (log entry 5).
Sys2Proof/Laws/SineReal.lean proves what the procedure computes over the real numbers.
-/

namespace Sys2Proof.Machine

/-- `MaxAmp(w)` = `2^(w-1) - 1` (R140). -/
def maxAmp (w : Width) : Nat := 2 ^ (w.bits - 1) - 1

/-- The term `1 / ((2j+1) * x^(2j+1))` of the series of atan(1/x) (R147). -/
def atanTerm (x j : Nat) : ℚ := 1 / (((2 * j + 1 : Nat) : ℚ) * (x : ℚ) ^ (2 * j + 1))

/-- The loop of `AtanInv` in R147, from term `j` with the partial sum `s`, for at most `fuel` further terms. -/
def atanLoop (x n : Nat) : Nat → Nat → ℚ → ℚ × ℚ
  | 0, j, s => (s, atanTerm x j)
  | fuel + 1, j, s =>
    if atanTerm x j < 1 / 2 ^ n then (s, atanTerm x j)
    else atanLoop x n fuel (j + 1) (if j % 2 = 0 then s + atanTerm x j else s - atanTerm x j)

/-- `AtanInv(x, n)` (R147): `(s, e)` with `|atan(1/x) - s| ≤ e`. -/
def atanInv (x n : Nat) : ℚ × ℚ := atanLoop x n (n + 1) 0 0

/-- `PiApprox(n)` (R147): `(p, e)` with `|π - p| ≤ e ≤ 2^-n`, by Machin's formula. -/
def piApprox (n : Nat) : ℚ × ℚ :=
  (16 * (atanInv 5 (n + 6)).1 - 4 * (atanInv 239 (n + 6)).1,
   16 * (atanInv 5 (n + 6)).2 + 4 * (atanInv 239 (n + 6)).2)

/-- The Taylor loop of R148 for the sine of `x`, from term number `j` whose value is `term`, with the partial sum `s`, for at
most `fuel` further terms: the sum, and the first term left out. -/
def taylorLoop (x : ℚ) (n : Nat) : Nat → Nat → ℚ → ℚ → ℚ × ℚ
  | 0, _, s, term => (s, term)
  | fuel + 1, j, s, term =>
    if 1 / 2 ^ n ≤ term then
      taylorLoop x n fuel (j + 1) (if j % 2 = 0 then s + term else s - term)
        (term * x * x / ((2 * (j + 1)) * (2 * (j + 1) + 1) : Nat))
    else (s, term)

/-- One pass of the outer loop of R148 at precision `n`: the floors `(lo, hi)` of the two ends of the interval that holds
`A * sin(π*k/(2P))`. -/
def sinBounds (A k P n : Nat) : Int × Int :=
  let x := (piApprox n).1 * k / (2 * P)
  let e1 := (piApprox n).2 * k / (2 * P)
  let r := taylorLoop x n (n + 2) 0 0 x
  let e := e1 + r.2
  (((A : ℚ) * (r.1 - e)).floor, ((A : ℚ) * (r.1 + e)).floor)

/-- The outer loop of R148: the precision doubles until the two floors agree, at most `fuel` times. -/
def sinRefine (A k P : Nat) : Nat → Nat → Int
  | 0, n => (sinBounds A k P n).1
  | fuel + 1, n =>
    if (sinBounds A k P n).1 = (sinBounds A k P n).2 then (sinBounds A k P n).1
    else sinRefine A k P fuel (2 * n)

/-- How often the precision may double. R148 sets no bound (its loop "always terminates", R145); so many doublings are always
enough, for every period and every width (`Laws.sinMagFloor_eq`, log entry 5). -/
def refineRounds (P : Nat) : Nat := P + 64

/-- `SinMagFloor(A, k, P)` = `floor(A * sin(π*k/(2P)))` for `1 ≤ k ≤ P - 1` (R148). -/
def sinMagFloor (A k P : Nat) : Int := sinRefine A k P (refineRounds P) 64

/-- The distance `k` inside the quadrant, of R146: mirrored in quadrants 1 and 3. -/
def foldedIndex (P i : Nat) : Nat :=
  if (4 * i / P) % 2 = 0 then (4 * i) % P else P - (4 * i) % P

/-- `SineSample(w, P, i)` (R141) by the folding of R146, for `P ≥ 1` and `i < P`. The exact real sine, not a floating-point
value of the software the spec was written from (R151; log entry 4). -/
def sineSample (w : Width) (P i : Nat) : Int :=
  if i = 0 ∨ 2 * i = P then 0
  else if 4 * i = P then (maxAmp w : Int)
  else if 4 * i = 3 * P then -(maxAmp w : Int)
  else if 4 * i / P < 2 then sinMagFloor (maxAmp w) (foldedIndex P i) P
  else -sinMagFloor (maxAmp w) (foldedIndex P i) P

/-- Is every element of the table of length `P` zero? Exactly for the lengths below 3, at every width (R127, R153): the test
R127 lets a model make in place of scanning (log entry 5). -/
def allZeroTable (P : Nat) : Bool := P ≤ 2

end Sys2Proof.Machine
end

