-- ==== Sys2Proof/Machine/Ops.lean ====
section
/-!
DEFINITION. The named operations: the field registers, TABLE, the response, mode gating, `raise` (the taking of an error,
spec/60_exceptions.md R176) and the return to the reset state, the only way out of an error (R191).
-/

namespace Sys2Proof.Machine

/-! ### Field registers (R8) -/

/-- `REG[X]`; WIDTH is zero-extended (R8, R180). -/
def State.reg (s : State) : ConfigField → Word
  | .frequency => s.frequency
  | .rate => s.rate
  | .len => s.len
  | .repeats => s.repeats
  | .skip => s.skip
  | .type => s.width.code.setWidth 32

/-- `REG[X] <- v`; for `type`, `WIDTH <- v[5:0]` (R100). An operand that names no width writes nothing: the entry command has
raised InvalidLiteral before it comes to the write (R106). -/
def State.writeReg (f : ConfigField) (v : Operand) (s : State) : State :=
  match f with
  | .frequency => { s with frequency := v }
  | .rate => { s with rate := v }
  | .len => { s with len := v }
  | .repeats => { s with repeats := v }
  | .skip => { s with skip := v }
  | .type => { s with width := (operandWidth v).getD s.width }

/-! ### TABLE (R60 to R63) -/

/-- Element `i` as it is held: a signed number of WIDTH bits (R61, R126). -/
def Table.element (t : Table) (i : Nat) : BitVec t.width.bits :=
  BitVec.ofInt t.width.bits (sineSample t.width t.period.toNat i)

/-- `MemRead(i, 1)`: the value of TABLE[i] as a signed number (R62). An element that does not exist cannot be read: no
reachable state asks for one (R63). -/
def Memory.read (m : Memory) (i : Nat) : Except Fault Int :=
  match m with
  | none => .error .tableElementAbsent
  | some t => if i < t.period.toNat then .ok (t.element i).toInt else .error .tableElementAbsent

/-- `MemWrite(i, 1, T[i])` for every `i` in `0 .. P-1` (R120 step 8, R126): the table of this width and period. -/
def Memory.fill (w : Width) (P : Word) : Memory := some { width := w, period := P }

/-! ### The response (R45) -/

/-- `nak` = 0, `valid` = 0, `sample` = 0. -/
def State.respondOk (s : State) : State := { s with response := { nak := false, valid := false, sample := 0 } }

/-- `nak`: the command is not allowed in this mode; nothing but the response changes (R86). -/
def State.respondNak (s : State) : State := { s with response := { nak := true, valid := false, sample := 0 } }

/-- `respond(sample)` (R8, R45). -/
def State.respondSample (v : BitVec 32) (s : State) : State :=
  { s with response := { nak := false, valid := true, sample := v } }

/-! ### Mode gating (R86) -/

/-- A command that executes in mode `m` only: in any other mode it is answered `nak`. -/
def whenMode (m : Mode) (run : State → Result) (s : State) : Result :=
  if s.mode = m then run s else .next s.respondNak

/-! ### Taking an error, and the way back -/

/-- `raise K(field, value, other)` by the command with opcode `op` (R176): the error record is written, MODE becomes ERROR,
the response is `nak` = 0, `valid` = 0, `sample` = 0, and nothing else changes. -/
def State.raise (k : ErrKind) (f : Option ConfigField) (op : Opcode) (value other : Word) (s : State) : State :=
  { s with
    mode := .error
    errKind := k
    errField := f
    errOp := op
    errValue := value
    errOther := other
    response := { nak := false, valid := false, sample := 0 } }

/-- Every register to its reset value and TABLE without elements (R161, R210, R211). What the host does next is not the
block's and stays. -/
def State.toReset (s : State) : State := { State.reset with host := s.host }

end Sys2Proof.Machine
end

