-- ==== Sys2Proof/Machine/Entry.lean ====
section
/-!
DEFINITION. The six configuration entry commands (spec/40_config_entries.md).
-/

namespace Sys2Proof.Machine

/-- `Entry(X, v)` (R100), executed by the command with opcode `op`: the checks in the order written, and the first that fails
ends the command. -/
def entry (f : ConfigField) (op : Opcode) (v : Operand) (s : State) : State :=
  if s.seenFlag f then s.raise .duplicateField (some f) op v (s.reg f)
  else
    match s.excludedBy f with
    | some other => s.raise .conflictingLenRepeats (some f) op v (s.reg other)
    | none =>
      if f = .type ∧ operandWidth v = none then s.raise .invalidLiteral (some f) op v 0
      else (((s.writeReg f v).setSeen f).noteFrLast f).respondOk

/-- `frequency: v` (R101). -/
def execFrequency (v : Operand) (s : State) : Result :=
  whenMode .config (fun t => .next (entry .frequency (Instr.frequency v).opcode v t)) s

/-- `rate: v` (R102). -/
def execRate (v : Operand) (s : State) : Result :=
  whenMode .config (fun t => .next (entry .rate (Instr.rate v).opcode v t)) s

/-- `len: v` (R103). -/
def execLen (v : Operand) (s : State) : Result :=
  whenMode .config (fun t => .next (entry .len (Instr.len v).opcode v t)) s

/-- `repeats: v` (R104). -/
def execRepeats (v : Operand) (s : State) : Result :=
  whenMode .config (fun t => .next (entry .repeats (Instr.repeats v).opcode v t)) s

/-- `skip: v` (R105). -/
def execSkip (v : Operand) (s : State) : Result :=
  whenMode .config (fun t => .next (entry .skip (Instr.skip v).opcode v t)) s

/-- `type: v` (R106). -/
def execType (v : Operand) (s : State) : Result :=
  whenMode .config (fun t => .next (entry .type (Instr.type v).opcode v t)) s

end Sys2Proof.Machine
end

