-- ==== Sys2Proof/Machine/Generate.lean ====
section
/-!
DEFINITION. The `gen` command (spec/41_generate.md).
-/

namespace Sys2Proof.Machine

/-- The positivity pass (R122): the first of `frequency`, `rate`, `len` (only when it is defined), `repeats` that holds 0. -/
def State.firstZeroField (s : State) : Option ConfigField :=
  if s.frequency = 0 then some .frequency
  else if s.rate = 0 then some .rate
  else if s.seenFlag .len = true ∧ s.len = 0 then some .len
  else if s.repeats = 0 then some .repeats
  else none

/-- The period length `P = RATE div FREQUENCY` (R123). -/
def State.periodLength (s : State) : Word := s.rate / s.frequency

/-- The output count of a period of length `P` (R128): LEN verbatim when it is defined, else the 64-bit product
`P * REPEATS`. -/
def State.outputCount (P : Word) (s : State) : Wide :=
  if s.seenFlag .len then s.len.setWidth 64 else P.setWidth 64 * s.repeats.setWidth 64

/-- Commit and arm (R128, R129): COUNT, PERIOD, TABLE, PHASE, INDEX and MODE, and nothing else but the response. -/
def State.arm (P : Word) (s : State) : State :=
  { s with
    count := s.outputCount P
    period := P
    table := Memory.fill s.width P
    phase := s.skip % P
    index := 0
    mode := .stream
    response := { nak := false, valid := false, sample := 0 } }

/-- The eight steps of R120, with the parameter `FREQ_HAS_DEFAULT` of step 1 as an argument (R121; log entry 12). -/
def generate (freqHasDefault : Bool) (op : Opcode) (s : State) : State :=
  if freqHasDefault = false ∧ s.seenFlag .frequency = false then
    s.raise .missingRequiredField (some .frequency) op 0 0
  else
    match s.firstZeroField with
    | some f => s.raise .nonPositiveValue (some f) op 0 0
    | none =>
      if s.periodLength.toNat < Config.minPeriod then
        s.raise .frequencyExceedsRate (some s.blame) op (s.reg s.blame) (s.reg (otherOfPair s.blame))
      else if allZeroTable s.periodLength.toNat then
        s.raise .degenerateWave (some s.blame) op (s.reg s.blame) (s.reg (otherOfPair s.blame))
      else s.arm s.periodLength

/-- `gen` (R120). -/
def execGen (s : State) : Result :=
  whenMode .config (fun t => .next (generate Config.freqHasDefault Instr.gen.opcode t)) s

end Sys2Proof.Machine
end

