-- ==== Sys2Proof/Machine/Stream.lean ====
section
/-!
DEFINITION. Sample delivery and `clear` (spec/43_stream.md).
-/

namespace Sys2Proof.Machine

/-- The register part of `next` (R160): PHASE advances by one element and wraps at PERIOD, INDEX counts the sample, and MODE
becomes DONE with the last one. The comparisons are of the mathematical integers (R7;
log entry 15). -/
def State.advance (s : State) : State :=
  { s with
    phase := if s.phase.toNat + 1 = s.period.toNat then 0 else s.phase + 1
    index := s.index + 1
    mode := if s.index.toNat + 1 = s.count.toNat then .done else s.mode }

/-- `next` in MODE STREAM (R160). -/
def deliver (s : State) : Result :=
  match s.table.read s.phase.toNat with
  | .ok v => .next (s.advance.respondSample (sext32 v))
  | .error r => .fault r

/-- `next` (R160). -/
def execNext (s : State) : Result := whenMode .stream deliver s

/-- `clear` (R161): executes in every mode. -/
def execClear (s : State) : Result := .next s.toReset

end Sys2Proof.Machine
end

