-- ==== Sys2Proof/Machine/Dispatch.lean ====
section
/-!
DEFINITION. One arm per constructor of Instr.
-/

namespace Sys2Proof.Machine

def exec (i : Instr) (s : State) : Host.Outcome State Fault Refusal :=
  match i with
  | .frequency v => Sys2Proof.Machine.execFrequency v s
  | .rate v => Sys2Proof.Machine.execRate v s
  | .len v => Sys2Proof.Machine.execLen v s
  | .repeats v => Sys2Proof.Machine.execRepeats v s
  | .skip v => Sys2Proof.Machine.execSkip v s
  | .type v => Sys2Proof.Machine.execType v s
  | .gen => Sys2Proof.Machine.execGen s
  | .next => Sys2Proof.Machine.execNext s
  | .clear => Sys2Proof.Machine.execClear s

end Sys2Proof.Machine
end

