-- ==== Sys2Proof/Machine/Ports.lean ====
section
/-!
DEFINITION. The interface ports (spec/10_state.md R44 to R46): what the block takes from the input pins, and what it shows.
-/

namespace Sys2Proof.Machine

/-- What one slot of the input pins asks of the block. -/
inductive HostEvent where
  /-- nothing is presented: the block waits and holds its state (R200) -/
  | idle
  /-- `rst` is asserted (R44, R210) -/
  | reset
  /-- a command is presented (R44) -/
  | command (w : CommandWord)
  deriving DecidableEq, Repr

/-- The event on a slot of pins: while `rst` is asserted the state is the reset state and no command is accepted (R44, R210;
log entry 8). -/
def hostEvent (i : HostInput) : HostEvent :=
  if i.rst then .reset else if i.cmdValid then .command i.cmd else .idle

/-- The next event and the state with its slot taken; an exhausted list is a host that presents nothing (log entry 1). -/
def State.takeInput (s : State) : HostEvent × State :=
  match s.host with
  | [] => (.idle, s)
  | i :: rest => (hostEvent i, { s with host := rest })

/-- The host presents the word `w` next. -/
def State.present (s : State) (w : CommandWord) : State := { s with host := HostInput.command w :: s.host }

/-- `cmd_ready` (R44): commands never overlap in the transaction-level model, so the block is ready unless it is held in
reset (R210). -/
def State.cmdReady (s : State) : Bool := s.takeInput.1 != .reset

/-- The status outputs of R46. -/
structure StatusOutputs where
  oMode : BitVec 2
  oSeen : BitVec 6
  oWidth : BitVec 6
  oPeriod : BitVec 32
  oCount : BitVec 64
  oIndex : BitVec 64
  oPhase : BitVec 32
  oErrKind : BitVec 4
  oErrField : BitVec 3
  oErrOp : BitVec 8
  oErrValue : BitVec 32
  oErrOther : BitVec 32
  oFrequency : BitVec 32
  oRate : BitVec 32
  oLen : BitVec 32
  oRepeats : BitVec 32
  oSkip : BitVec 32
  deriving DecidableEq, Repr

/-- The status outputs show the registers; reading them has no side effect (R46). FR_LAST and TABLE are in none of them
(log entry 10). -/
def State.status (s : State) : StatusOutputs where
  oMode := s.mode.code
  oSeen := s.seen
  oWidth := s.width.code
  oPeriod := s.period
  oCount := s.count
  oIndex := s.index
  oPhase := s.phase
  oErrKind := s.errKind.code
  oErrField := fieldCode s.errField
  oErrOp := s.errOp
  oErrValue := s.errValue
  oErrOther := s.errOther
  oFrequency := s.frequency
  oRate := s.rate
  oLen := s.len
  oRepeats := s.repeats
  oSkip := s.skip

end Sys2Proof.Machine
end

