-- ==== Sys2Proof/Machine/Reserved.lean ====
section
/-!
DEFINITION. What a command word with a reserved opcode does (spec/30_encoding.md R85, R86; spec/60_exceptions.md R179).
-/

namespace Sys2Proof.Machine

/-- No constructor of Instr stands for these words (log entry 9). In MODE CONFIG such a word raises UnknownField, with the
mask of the unset fields as the detail (R179); elsewhere it is answered `nak` (R86). -/
def execReserved : DecodeRefusal → State → Result
  | .reserved op operand, s =>
    whenMode .config (fun t => .next (t.raise .unknownField none op operand t.unsetMask)) s

end Sys2Proof.Machine
end

