-- ==== Sys2Proof/Machine/Step.lean ====
section
/-!
DEFINITION. One step of the machine: the block takes one slot of the host's input pins and answers it
(spec/00_scope.md R5; spec/10_state.md R44; spec/30_encoding.md R87).
-/

namespace Sys2Proof.Machine

/-- One step: nothing presented, the state is held (R200); `rst`, the reset state (R210); a command word, the command it
decodes to, or the effect of a reserved opcode (R85 to R87). -/
def step (s : State) : Host.Outcome State Fault Refusal :=
  match s.takeInput with
  | (.idle, t) => .next t
  | (.reset, t) => .next t.toReset
  | (.command w, t) =>
    match decode w with
    | .ok i => exec i t
    | .error r => execReserved r t

/-- The host presents, as the very next command, the word whose low `nbits` bits are those of `w` (log entry 11). The block
fetches nothing from a memory (R41), so the command port is where its next instruction stands. -/
def State.withFetchWord (s : State) (nbits w : Nat) : State := s.present (tableWord nbits w)

end Sys2Proof.Machine
end

