-- ==== Sys2Proof/Machine/FrontEnd.lean ====
section
/-!
DEFINITION. The contract of the front end and the expansion of an invocation (spec/30_encoding.md R88 to R92). The processing
of text is out of the spec's scope (spec/00_scope.md R4); what an entry of the text stands for is taken as given here, and
the contract from there to command words is the spec's (log entry 13).
-/

namespace Sys2Proof.Machine

/-- The value of a source entry, after the text has been read (R88, R90). -/
inductive Literal where
  /-- an integer literal, with its sign -/
  | integer (n : Int)
  /-- one of the identifiers `i8`, `i16`, `i32` of the closed set (R90) -/
  | typeName (w : Width)
  /-- anything else: a non-numeric literal, or an identifier outside the set -/
  | other
  deriving DecidableEq, Repr

/-- The name of a source entry: one of the six fields, or none of them (R88). -/
inductive EntryName where
  | known (f : ConfigField)
  | unknown
  deriving DecidableEq, Repr

/-- One `name: value` pair of an invocation (R88). -/
structure SourceEntry where
  name : EntryName
  value : Literal
  deriving DecidableEq, Repr

/-- The entry command of a field (R84). -/
def entryInstr (f : ConfigField) (v : Operand) : Instr :=
  match f with
  | .frequency => .frequency v
  | .rate => .rate v
  | .len => .len v
  | .repeats => .repeats v
  | .skip => .skip v
  | .type => .type v

/-- The error kind the front end reports for a negative literal of a numeric field (R89). -/
def negativeKind (f : ConfigField) : ErrKind := if f = .skip then .negativeSkip else .nonPositiveValue

/-- The value of a numeric field: a literal in `0 .. 2^32 - 1` is passed through, 0 included; a negative one, one that does
not fit and one that is not numeric fail in the front end (R89). -/
def numericOperand (f : ConfigField) : Literal → Except ErrKind Operand
  | .integer n =>
    if n < 0 then .error (negativeKind f)
    else if n < 2 ^ 32 then .ok (BitVec.ofInt 32 n)
    else .error .invalidLiteral
  | .typeName _ => .error .invalidLiteral
  | .other => .error .invalidLiteral

/-- The value of `type`: the identifiers stand for 8, 16 and 32; any other value is failed by the front end itself (R90). -/
def typeOperand : Literal → Except ErrKind Operand
  | .integer _ => .error .invalidLiteral
  | .typeName w => .ok (w.code.setWidth 32)
  | .other => .error .invalidLiteral

/-- The operand that goes with an unknown name: the literal where it fits, else 0 (log entry 13). -/
def unknownOperand : Literal → Operand
  | .integer n => if 0 ≤ n ∧ n < 2 ^ 32 then BitVec.ofInt 32 n else 0
  | .typeName w => w.code.setWidth 32
  | .other => 0

/-- One source entry to one command word, or to the failure of the invocation; an unknown name is passed to the block as the
reserved opcode 0x00 (R89). -/
def frontEnd (e : SourceEntry) : Except ErrKind CommandWord :=
  match e.name with
  | .known .type => (typeOperand e.value).map (fun v => encode (.type v))
  | .known f => (numericOperand f e.value).map (fun v => encode (entryInstr f v))
  | .unknown => .ok (commandWord 0x00 (unknownOperand e.value))

/-- The fixed part of an invocation (R91): `clear`, the entries in textual order, `gen`. -/
def invocation (es : List SourceEntry) : Except ErrKind (List CommandWord) :=
  (es.mapM frontEnd).map (fun ws => encode .clear :: ws ++ [encode .gen])

/-- The rest of an invocation (R91): `next`, COUNT times, only if MODE = STREAM after `gen`. -/
def State.drawCommands (s : State) : List CommandWord :=
  if s.mode = .stream then List.replicate s.count.toNat (encode .next) else []

end Sys2Proof.Machine
end

