-- ==== Sys2Proof/Machine/Invocation.lean ====
section
/-!
DEFINITION. The invocation carried out: the command sequence of spec/30_encoding.md R91 presented to the block one command
at a time, and its result (R91; spec/43_stream.md R164, R165).
-/

namespace Sys2Proof.Machine

/-- The host presents one word and the block answers it. -/
def issue (w : CommandWord) (s : State) : Result := step (s.present w)

/-- The host presents the words in order; the model's own stop, if there is one, ends it. -/
def issueAll : List CommandWord → State → Result
  | [], s => .next s
  | w :: ws, s =>
    match issue w s with
    | .next t => issueAll ws t
    | .fault r => .fault r
    | .refused r => .refused r

/-- The host presents the words in order and keeps the sample of every response (R48): the Sample Sequence and the last
state, or `none` where the model stops. -/
def collectSamples : List CommandWord → State → Option (List (BitVec 32) × State)
  | [], s => some ([], s)
  | w :: ws, s =>
    match issue w s with
    | .next t => (collectSamples ws t).map (fun r => (t.response.sample :: r.1, r.2))
    | .fault _ => none
    | .refused _ => none

/-- The result of an invocation. -/
inductive InvocationResult where
  /-- MODE = DONE at the end: WIDTH, COUNT and the samples in order (R91, R165) -/
  | output (width : Width) (count : Wide) (samples : List (BitVec 32))
  /-- MODE = ERROR: the error record and no samples (R91, R165) -/
  | failed (kind : ErrKind) (field : Option ConfigField) (value other : Word)
  /-- the front end failed an entry, with this kind (R89). DESIGN CHOICE (log entry 13): R89 gives only the kind, so the field
  and the literal are not part of this result -/
  | rejected (kind : ErrKind)
  /-- the run did not come to its end: no invocation ends like this (R164), and the model's own fault would (log entry 7) -/
  | unfinished
  deriving DecidableEq, Repr

/-- The result that the end of a run shows (R91, R164, R165). -/
def resultOf (samples : List (BitVec 32)) (s : State) : InvocationResult :=
  match s.mode with
  | .done => .output s.width s.count samples
  | .error => .failed s.errKind s.errField s.errValue s.errOther
  | .config => .unfinished
  | .stream => .unfinished

/-- The invocation of the entries `es`, on a block in the state `s` (R91). -/
def invoke (es : List SourceEntry) (s : State) : InvocationResult :=
  match invocation es with
  | .error k => .rejected k
  | .ok ws =>
    match issueAll ws s with
    | .next t =>
      match collectSamples t.drawCommands t with
      | some (samples, u) => resultOf samples u
      | none => .unfinished
    | .fault _ => .unfinished
    | .refused _ => .unfinished

end Sys2Proof.Machine
end

