-- ==== Sys2Proof/Safety.lean ====
section
/-!
DEFINITION. The terms in which the claims are stated: the invariants of spec/10_state.md R43, the conditions of
spec/41_generate.md R132, the mode gating table of spec/30_encoding.md R86, and truncation toward zero over the reals.
-/

namespace Sys2Proof.Safety

open Sys2Proof.Machine

/-- R43 (a): MODE = ERROR if and only if ERR_KIND ≠ 0. -/
def errorModeIffRecord (s : State) : Prop := s.mode = .error ↔ s.errKind ≠ .none

/-- R43 (b): WIDTH is 8, 16 or 32 and never anything else. -/
def widthLegal (s : State) : Prop := s.width.code = 8 ∨ s.width.code = 16 ∨ s.width.code = 32

/-- R43 (c): SEEN[len] and SEEN[repeats] are never both 1. -/
def lenRepeatsExclusive (s : State) : Prop := ¬ (s.seenFlag .len = true ∧ s.seenFlag .repeats = true)

/-- What R43 (d) says of a state in MODE CONFIG or ERROR: the generator registers are 0 and TABLE has no value. -/
def generatorEmpty (s : State) : Prop :=
  s.period = 0 ∧ s.count = 0 ∧ s.phase = 0 ∧ s.index = 0 ∧ s.table = none

/-- What R43 (e) and (f) say of a state in MODE STREAM or DONE alike. -/
def generatorArmed (s : State) : Prop :=
  3 ≤ s.period.toNat ∧ 1 ≤ s.count.toNat ∧
  s.phase.toNat = (s.skip.toNat + s.index.toNat) % s.period.toNat ∧
  1 ≤ s.frequency.toNat ∧ 3 * s.frequency.toNat ≤ s.rate.toNat ∧
  s.period.toNat = s.rate.toNat / s.frequency.toNat ∧
  s.table = some { width := s.width, period := s.period }

/-- R43 (g): a field register whose SEEN flag is 0 holds its reset value. -/
def unseenAtReset (s : State) : Prop :=
  (s.seenFlag .frequency = false → s.frequency = State.reset.frequency) ∧
  (s.seenFlag .rate = false → s.rate = State.reset.rate) ∧
  (s.seenFlag .len = false → s.len = State.reset.len) ∧
  (s.seenFlag .repeats = false → s.repeats = State.reset.repeats) ∧
  (s.seenFlag .skip = false → s.skip = State.reset.skip) ∧
  (s.seenFlag .type = false → s.width = State.reset.width)

/-- The state invariant of R43, clauses (a) to (g) in its order. -/
def StateInv (s : State) : Prop :=
  errorModeIffRecord s ∧ widthLegal s ∧ lenRepeatsExclusive s ∧
  (s.mode = .config ∨ s.mode = .error → generatorEmpty s) ∧
  (s.mode = .stream → generatorArmed s ∧ s.index.toNat < s.count.toNat) ∧
  (s.mode = .done → generatorArmed s ∧ s.index.toNat = s.count.toNat) ∧
  unseenAtReset s

/-- What the record of a frequency/rate error holds (R125, R185, R186): the blamed field, its value, and the value of the other
field of the pair. -/
def blamedPairRecorded (s : State) : Prop :=
  s.errField = some s.blame ∧
  ((s.blame = .frequency ∧ s.errValue = s.frequency ∧ s.errOther = s.rate) ∨
   (s.blame = .rate ∧ s.errValue = s.rate ∧ s.errOther = s.frequency))

/-- What the error record may hold (R35 to R39, R179 to R187): all reset values outside MODE ERROR, and in MODE ERROR a kind
the block raises, with the field, the opcode and the two values that belong to it. What a kind says of the configuration, of
SEEN and of FR_LAST stays true because none of them changes in MODE ERROR. -/
def RecordInv (s : State) : Prop :=
  (s.mode ≠ .error → s.errKind = .none ∧ s.errField = none ∧ s.errOp = 0 ∧ s.errValue = 0 ∧ s.errOther = 0) ∧
  (s.mode = .error →
    match s.errKind with
    | .none => False
    | .unknownField =>
      s.errField = none ∧ isReserved s.errOp = true ∧ s.errOther = (~~~s.seen &&& 0b111111#6).setWidth 32
    | .duplicateField =>
      ∃ f, s.errField = some f ∧ s.errOp = f.id.setWidth 8 ∧ s.seenFlag f = true ∧ s.errOther = s.reg f
    | .invalidLiteral =>
      s.errField = some .type ∧ s.errOp = 0x06 ∧ s.seenFlag .type = false ∧
      (s.errValue ≠ 8 ∧ s.errValue ≠ 16 ∧ s.errValue ≠ 32) ∧ s.errOther = 0
    | .nonPositiveValue =>
      ((s.errField = some .frequency ∧ s.frequency = 0) ∨
       (s.errField = some .rate ∧ s.frequency ≠ 0 ∧ s.rate = 0) ∨
       (s.errField = some .len ∧ s.frequency ≠ 0 ∧ s.rate ≠ 0 ∧ s.seenFlag .len = true ∧ s.len = 0) ∨
       (s.errField = some .repeats ∧ s.frequency ≠ 0 ∧ s.rate ≠ 0 ∧ (s.seenFlag .len = true → s.len ≠ 0) ∧ s.repeats = 0)) ∧
      s.errOp = 0x10 ∧ s.errValue = 0 ∧ s.errOther = 0
    | .negativeSkip => False
    | .conflictingLenRepeats =>
      (s.errField = some .len ∧ s.errOp = 0x03 ∧ s.seenFlag .repeats = true ∧ s.errOther = s.repeats) ∨
      (s.errField = some .repeats ∧ s.errOp = 0x04 ∧ s.seenFlag .len = true ∧ s.errOther = s.len)
    | .frequencyExceedsRate =>
      s.errOp = 0x10 ∧ s.rate.toNat < 2 * s.frequency.toNat ∧ blamedPairRecorded s
    | .degenerateWave =>
      s.errOp = 0x10 ∧ 2 * s.frequency.toNat ≤ s.rate.toNat ∧ s.rate.toNat < 3 * s.frequency.toNat ∧ blamedPairRecorded s
    | .missingRequiredField => False)

/-- The conditions of R132 under which `gen` succeeds. -/
def genAccepts (s : State) : Prop :=
  1 ≤ s.frequency.toNat ∧ 1 ≤ s.rate.toNat ∧ (s.seenFlag .len = false ∨ 1 ≤ s.len.toNat) ∧ 1 ≤ s.repeats.toNat ∧
  3 * s.frequency.toNat ≤ s.rate.toNat

/-- The mode gating table of R86: is a command word with this opcode executed (or, if it is reserved, does it raise) in this
mode? Where it is not, it is answered `nak`. -/
def executesIn (m : Mode) (op : Opcode) : Bool :=
  if op = 0x1F then true
  else if op = 0x11 then m = .stream
  else m = .config

/-- The response of a command that executed and is no `next`, raising or not (R45). -/
def okResponse : Response := { nak := false, valid := false, sample := 0 }

/-- The response `nak` (R45, R86). -/
def nakResponse : Response := { nak := true, valid := false, sample := 0 }

/-- `n = trunc(x)`: rounding toward zero (spec/00_scope.md R9). -/
def TruncatesTo (x : ℝ) (n : Int) : Prop := (0 ≤ x → n = ⌊x⌋) ∧ (x < 0 → n = -⌊-x⌋)

/-- The source entry `f: n` (R88). -/
def numericEntry (f : ConfigField) (n : Nat) : SourceEntry := { name := .known f, value := .integer n }

/-- The source entry `type: i8`, `i16` or `i32` (R90). -/
def typeEntry (w : Width) : SourceEntry := { name := .known .type, value := .typeName w }

/-- The `n` samples of the cyclic table of width `w` and period `P` that begin at phase `k`, on the 32-bit port (R162). -/
def cyclicSamples (w : Width) (P k n : Nat) : List (BitVec 32) :=
  (List.range n).map (fun j => BitVec.ofInt 32 (sineSample w P ((k + j) % P)))

/-- The slots of a host that presents `next` `n` times in a row. -/
def nextSlots (n : Nat) : List HostInput := List.replicate n (HostInput.command (encode .next))

end Sys2Proof.Safety
end

