-- ==== Sys2Proof/Certificates/Slice0/Obligations.lean ====
section
/-!
DEFINITION. The statements about the model, for the provers. Each docstring names the rule of spec/ it formalises.
-/

open Sys2Proof Sys2Proof.Machine Sys2Proof.Safety

/-! ### Reset -/

/-- R211, R212: the reset state, register by register as the outputs show it, TABLE without value, the response port idle. -/
def Obligations.ResetStateHoldsTheListedValues : Prop :=
  State.reset.mode.code = 0 ∧ State.reset.seen = 0b000000 ∧ State.reset.frequency = 440 ∧ State.reset.rate = 44100 ∧
  State.reset.len = 0 ∧ State.reset.repeats = 1 ∧ State.reset.skip = 0 ∧ State.reset.width.code = 16 ∧
  State.reset.frLast = 0 ∧ State.reset.period = 0 ∧ State.reset.count = 0 ∧ State.reset.phase = 0 ∧
  State.reset.index = 0 ∧ State.reset.table = none ∧ State.reset.errKind.code = 0 ∧
  fieldCode State.reset.errField = 0 ∧ State.reset.errOp = 0 ∧ State.reset.errValue = 0 ∧ State.reset.errOther = 0 ∧
  State.reset.response = { nak := false, valid := false, sample := 0 }

/-! ### Encoding -/

/-- R84, R92: the words of the spec's listings decode to the commands they are listed for. -/
def Obligations.ListedWordsDecodeToTheirCommands : Prop :=
  decode 0x01000001B8 = .ok (.frequency 440) ∧ decode 0x0200000064 = .ok (.rate 100) ∧
  decode 0x0300000005 = .ok (.len 5) ∧ decode 0x04FFFFFFFF = .ok (.repeats 4294967295) ∧
  decode 0x050000000B = .ok (.skip 11) ∧ decode 0x0600000010 = .ok (.type 16) ∧
  decode 0x1000000000 = .ok .gen ∧ decode 0x1100000000 = .ok .next ∧ decode 0x1F00000000 = .ok .clear ∧
  decode 0x0700000063 = .error (.reserved 0x07 99)

/-- R80, R81, R84, R87: decoding the encoding of any well-formed command, with any operand, gives the command back. -/
def Obligations.DecodingInvertsEncoding : Prop :=
  ∀ i : Instr, i.wf = true → decode (encode i) = .ok i

/-- R80, R81, R87: a word that decodes to a command has the command's opcode, and if the command uses its operand the word is
the command's encoding, so no two words decode to one format-E command. -/
def Obligations.FormatEWordIsTheEncodingOfItsCommand : Prop :=
  ∀ (w : CommandWord) (i : Instr), decode w = .ok i →
    opcodeOf w = i.opcode ∧ (i.usesOperand = true → encode i = w)

/-- R82: the 32 operand bits of `gen`, `next` and `clear` are don't-care. -/
def Obligations.FormatZIgnoresTheOperandBits : Prop :=
  ∀ v : Operand, decode (commandWord 0x10 v) = .ok .gen ∧ decode (commandWord 0x11 v) = .ok .next ∧
    decode (commandWord 0x1F v) = .ok .clear

/-- R85, R87: a word names no command exactly when its opcode is one of the reserved ones; there are 247 of them, and none of
the nine assigned opcodes is among them. -/
def Obligations.ReservedOpcodesAreTheUnassignedOnes : Prop :=
  (∀ w : CommandWord, decode w = .error (.reserved (opcodeOf w) (operandOf w)) ↔ isReserved (opcodeOf w) = true) ∧
  (∀ w : CommandWord, (∃ i, decode w = .ok i) ↔ isReserved (opcodeOf w) = false) ∧
  ((List.range 256).filter (fun n => isReserved (BitVec.ofNat 8 n))).length = 247

/-! ### The step and mode gating -/

/-- R5, R44, R87: when the host presents a word that decodes to a command, the step runs that command on the state with the
slot taken from the host's list. -/
def Obligations.StepRunsTheDecodedCommand : Prop :=
  ∀ (s : State) (p : HostInput) (rest : List HostInput) (i : Instr),
    s.host = p :: rest → p.rst = false → p.cmdValid = true → decode p.cmd = .ok i → i.wf = true →
    step s = exec i { s with host := rest }

/-- R41, R87: the word that `withFetchWord` places is the one the next step runs, as the decoder reads it. That the command
port is where the next instruction stands is the model's reading (log entry 11). -/
def Obligations.FetchedWordRunsNext : Prop :=
  ∀ (s : State) (nbits w : Nat) (i : Instr), decodeTableWord nbits w = some i →
    step (s.withFetchWord nbits w) = exec i s

/-- R44, R200, R210: with no slot left, or with nothing presented, the step holds the block's state; with `rst` asserted it
leaves the reset state, whatever else is on the pins. What a slot is, and an exhausted list, are the model's choice (log
entries 1 and 8), and so is the clause, contained in the first two equations, that the response port keeps its last value
over an idle step (log entry 2, DESIGN CHOICE; R200 speaks of the block's state only). -/
def Obligations.StepWithoutACommandHoldsOrResets : Prop :=
  (∀ s : State, s.host = [] → step s = .next s) ∧
  (∀ (s : State) (p : HostInput) (rest : List HostInput), s.host = p :: rest → p.rst = false → p.cmdValid = false →
    step s = .next { s with host := rest }) ∧
  (∀ (s : State) (p : HostInput) (rest : List HostInput), s.host = p :: rest → p.rst = true →
    step s = .next { State.reset with host := rest })

/-- R85, R86, R179: a reserved opcode raises UnknownField in MODE CONFIG, with the operand and the mask of the unset fields
recorded, and is answered `nak` in every other mode. -/
def Obligations.ReservedOpcodeRaisesUnknownField : Prop :=
  ∀ (s : State) (p : HostInput) (rest : List HostInput),
    s.host = p :: rest → p.rst = false → p.cmdValid = true → isReserved (opcodeOf p.cmd) = true →
    step s = .next
      (if s.mode = .config then
        { s with
          host := rest, mode := .error, errKind := .unknownField, errField := none, errOp := opcodeOf p.cmd,
          errValue := operandOf p.cmd, errOther := (~~~s.seen &&& 0b111111#6).setWidth 32, response := okResponse }
      else { s with host := rest, response := nakResponse })

/-- R86, R193: the mode gating table. Where the table has `nak`, nothing but the response changes; where it has execute or
raise, the response is not `nak`. -/
def Obligations.ModeGatingFollowsTheTable : Prop :=
  ∀ (s : State) (p : HostInput) (rest : List HostInput),
    s.host = p :: rest → p.rst = false → p.cmdValid = true →
    (executesIn s.mode (opcodeOf p.cmd) = false → step s = .next { s with host := rest, response := nakResponse }) ∧
    (executesIn s.mode (opcodeOf p.cmd) = true → ∀ t, step s = .next t → t.response.nak = false)

/-- R21: the mode transitions of every command. -/
def Obligations.ModeMovesOnlyAsListed : Prop :=
  ∀ (i : Instr) (s t : State), exec i s = .next t →
    (executesIn s.mode i.opcode = false → t.mode = s.mode) ∧
    (executesIn s.mode i.opcode = true →
      (i = .clear → t.mode = .config) ∧
      (i = .next → t.mode = if s.index.toNat + 1 = s.count.toNat then .done else .stream) ∧
      (i = .gen → (t.mode = .stream ∧ t.errKind = s.errKind) ∨ (t.mode = .error ∧ t.errKind ≠ .none)) ∧
      (∀ f v, i = entryInstr f v →
        (t.mode = .config ∧ t.errKind = s.errKind) ∨ (t.mode = .error ∧ t.errKind ≠ .none)))

/-! ### The entry commands -/

/-- R101: `frequency` defines FREQUENCY in MODE CONFIG when it is not yet defined, whatever the value; nothing else changes. -/
def Obligations.FrequencyEntryDefinesTheField : Prop :=
  ∀ (v : Operand) (s : State), s.mode = .config → s.seenFlag .frequency = false →
    exec (.frequency v) s =
      .next { s with frequency := v, seen := s.seen ||| 0b000001#6, frLast := 0, response := okResponse }

/-- R102: `rate` defines RATE; nothing else changes. -/
def Obligations.RateEntryDefinesTheField : Prop :=
  ∀ (v : Operand) (s : State), s.mode = .config → s.seenFlag .rate = false →
    exec (.rate v) s = .next { s with rate := v, seen := s.seen ||| 0b000010#6, frLast := 1, response := okResponse }

/-- R103: `len` defines LEN when neither `len` nor `repeats` is defined; nothing else changes. -/
def Obligations.LenEntryDefinesTheField : Prop :=
  ∀ (v : Operand) (s : State), s.mode = .config → s.seenFlag .len = false → s.seenFlag .repeats = false →
    exec (.len v) s = .next { s with len := v, seen := s.seen ||| 0b000100#6, response := okResponse }

/-- R104: `repeats` defines REPEATS when neither `repeats` nor `len` is defined; nothing else changes. -/
def Obligations.RepeatsEntryDefinesTheField : Prop :=
  ∀ (v : Operand) (s : State), s.mode = .config → s.seenFlag .repeats = false → s.seenFlag .len = false →
    exec (.repeats v) s = .next { s with repeats := v, seen := s.seen ||| 0b001000#6, response := okResponse }

/-- R105: `skip` defines SKIP with any value; nothing else changes. -/
def Obligations.SkipEntryDefinesTheField : Prop :=
  ∀ (v : Operand) (s : State), s.mode = .config → s.seenFlag .skip = false →
    exec (.skip v) s = .next { s with skip := v, seen := s.seen ||| 0b010000#6, response := okResponse }

/-- R106: `type` with the operand 8, 16 or 32 defines WIDTH; nothing else changes. -/
def Obligations.TypeEntryDefinesTheWidth : Prop :=
  ∀ (v : Operand) (w : Width) (s : State), s.mode = .config → s.seenFlag .type = false →
    (v = 8 ∧ w = .w8) ∨ (v = 16 ∧ w = .w16) ∨ (v = 32 ∧ w = .w32) →
    exec (.type v) s = .next { s with width := w, seen := s.seen ||| 0b100000#6, response := okResponse }

/-- R100, R176, R180: a second entry of a field raises DuplicateField, whatever its value, before every other check; nothing
but the record, MODE and the response changes. -/
def Obligations.RepeatedFieldRaisesDuplicateField : Prop :=
  ∀ (f : ConfigField) (v : Operand) (s : State), s.mode = .config → s.seenFlag f = true →
    exec (entryInstr f v) s = .next
      { s with
        mode := .error, errKind := .duplicateField, errField := some f, errOp := f.id.setWidth 8, errValue := v,
        errOther := s.reg f, response := okResponse }

/-- R100, R176, R184: `len` after `repeats` and `repeats` after `len` raise ConflictingLenRepeats against the second one,
whatever the two values. -/
def Obligations.LenAndRepeatsExcludeEachOther : Prop :=
  (∀ (v : Operand) (s : State), s.mode = .config → s.seenFlag .len = false → s.seenFlag .repeats = true →
    exec (.len v) s = .next
      { s with
        mode := .error, errKind := .conflictingLenRepeats, errField := some .len, errOp := 0x03, errValue := v,
        errOther := s.repeats, response := okResponse }) ∧
  (∀ (v : Operand) (s : State), s.mode = .config → s.seenFlag .repeats = false → s.seenFlag .len = true →
    exec (.repeats v) s = .next
      { s with
        mode := .error, errKind := .conflictingLenRepeats, errField := some .repeats, errOp := 0x04, errValue := v,
        errOther := s.len, response := okResponse })

/-- R106, R176, R181: `type` with an operand other than 8, 16 and 32 raises InvalidLiteral; the whole operand is compared. -/
def Obligations.IllegalTypeOperandRaisesInvalidLiteral : Prop :=
  ∀ (v : Operand) (s : State), s.mode = .config → s.seenFlag .type = false → v ≠ 8 → v ≠ 16 → v ≠ 32 →
    exec (.type v) s = .next
      { s with
        mode := .error, errKind := .invalidLiteral, errField := some .type, errOp := 0x06, errValue := v,
        errOther := 0, response := okResponse }

/-- R107: two entries of different fields that raise nothing may be exchanged; only FR_LAST can tell the order. -/
def Obligations.EntriesThatRaiseNothingCommute : Prop :=
  ∀ (f g : ConfigField) (v w : Operand) (s t u : State), f ≠ g → s.mode = .config →
    exec (entryInstr f v) s = .next t → t.mode = .config → exec (entryInstr g w) t = .next u → u.mode = .config →
    ∃ t' u', exec (entryInstr g w) s = .next t' ∧ t'.mode = .config ∧ exec (entryInstr f v) t' = .next u' ∧
      { u' with frLast := u.frLast } = u

/-- R22, R29, R42: a SEEN flag is set only by the entry command of its field and cleared only by `clear`; FR_LAST changes
only by `frequency`, `rate` and `clear`. -/
def Obligations.FlagsChangeOnlyByTheirWriters : Prop :=
  ∀ (i : Instr) (s t : State), exec i s = .next t →
    (∀ f, s.seenFlag f = true → t.seenFlag f = false → i = .clear) ∧
    (∀ f, s.seenFlag f = false → t.seenFlag f = true → ∃ v, i = entryInstr f v) ∧
    (s.frLast ≠ t.frLast → (∃ v, i = .frequency v) ∨ (∃ v, i = .rate v) ∨ i = .clear)

/-! ### gen -/

/-- R120, R123, R128, R129, R133: on an accepted configuration `gen` computes the period, the count, the phase and the table
and arms the stream; nothing else changes, and the 64-bit product drops no bits. -/
def Obligations.GenArmsTheStream : Prop :=
  ∀ s : State, s.mode = .config → genAccepts s →
    exec .gen s = .next
      { s with
        count :=
          if s.seenFlag .len then s.len.setWidth 64 else (s.rate / s.frequency).setWidth 64 * s.repeats.setWidth 64
        period := s.rate / s.frequency
        table := some { width := s.width, period := s.rate / s.frequency }
        phase := s.skip % (s.rate / s.frequency)
        index := 0
        mode := .stream
        response := okResponse } ∧
    ((s.rate / s.frequency).setWidth 64 * s.repeats.setWidth 64 : Wide).toNat =
      s.rate.toNat / s.frequency.toNat * s.repeats.toNat

/-- R132: `gen` succeeds if and only if the five conditions hold. -/
def Obligations.GenSucceedsExactlyWhenAccepted : Prop :=
  ∀ s : State, s.mode = .config → ((∃ t, exec .gen s = .next t ∧ t.mode = .stream) ↔ genAccepts s)

/-- R122, R182, R188: the first of `frequency`, `rate`, a defined `len`, `repeats` that holds 0 is reported with
NonPositiveValue; nothing else changes. -/
def Obligations.GenReportsTheFirstZeroField : Prop :=
  ∀ (s : State) (f : ConfigField), s.mode = .config →
    (f = .frequency ∧ s.frequency = 0) ∨
    (f = .rate ∧ s.frequency ≠ 0 ∧ s.rate = 0) ∨
    (f = .len ∧ s.frequency ≠ 0 ∧ s.rate ≠ 0 ∧ s.seenFlag .len = true ∧ s.len = 0) ∨
    (f = .repeats ∧ s.frequency ≠ 0 ∧ s.rate ≠ 0 ∧ (s.seenFlag .len = true → s.len ≠ 0) ∧ s.repeats = 0) →
    exec .gen s = .next
      { s with
        mode := .error, errKind := .nonPositiveValue, errField := some f, errOp := 0x10, errValue := 0, errOther := 0,
        response := okResponse }

/-- R124, R185: a period below 2 raises FrequencyExceedsRate against the blamed field, with its value and the other's. -/
def Obligations.GenRejectsPeriodsBelowTwo : Prop :=
  ∀ s : State, s.mode = .config → s.frequency ≠ 0 → s.rate ≠ 0 → (s.seenFlag .len = true → s.len ≠ 0) → s.repeats ≠ 0 →
    s.rate.toNat < 2 * s.frequency.toNat →
    exec .gen s = .next
      { s with
        mode := .error, errKind := .frequencyExceedsRate, errField := some s.blame, errOp := 0x10,
        errValue := if s.blame = .frequency then s.frequency else s.rate,
        errOther := if s.blame = .frequency then s.rate else s.frequency, response := okResponse }

/-- R127, R186: a period of exactly 2 raises DegenerateWave against the blamed field, with its value and the other's. -/
def Obligations.GenRejectsDegenerateWaves : Prop :=
  ∀ s : State, s.mode = .config → s.frequency ≠ 0 → (s.seenFlag .len = true → s.len ≠ 0) → s.repeats ≠ 0 →
    2 * s.frequency.toNat ≤ s.rate.toNat → s.rate.toNat < 3 * s.frequency.toNat →
    exec .gen s = .next
      { s with
        mode := .error, errKind := .degenerateWave, errField := some s.blame, errOp := 0x10,
        errValue := if s.blame = .frequency then s.frequency else s.rate,
        errOther := if s.blame = .frequency then s.rate else s.frequency, response := okResponse }

/-- R29, R125: of two supplied fields the later one is blamed; of one supplied field, that one; of none, `frequency`. -/
def Obligations.BlameFallsOnTheLaterSupplied : Prop :=
  ∀ (s t u : State) (v w : Operand), s.mode = .config → s.seenFlag .frequency = false → s.seenFlag .rate = false →
    s.blame = .frequency ∧
    (exec (.frequency v) s = .next t → t.blame = .frequency ∧ (exec (.rate w) t = .next u → u.blame = .rate)) ∧
    (exec (.rate v) s = .next t → t.blame = .rate ∧ (exec (.frequency w) t = .next u → u.blame = .frequency))

/-- R130, R176: a `gen` that raises commits nothing but the error record and MODE: the generator registers and TABLE keep
what they hold, so they stay empty. -/
def Obligations.FailingGenCommitsOnlyTheRecord : Prop :=
  ∀ s t : State, s.mode = .config → exec .gen s = .next t → t.mode = .error →
    t = { s with
          mode := .error, errKind := t.errKind, errField := t.errField, errOp := 0x10, errValue := t.errValue,
          errOther := t.errOther, response := okResponse } ∧
    (generatorEmpty s → generatorEmpty t)

/-- R121, R187: with `FREQ_HAS_DEFAULT` false, `gen` without a `frequency` entry raises MissingRequiredField before every
other test; with this hardware's parameter no `gen` does. -/
def Obligations.MissingFrequencyIsReportedOnlyWithoutDefault : Prop :=
  (∀ s : State, s.seenFlag .frequency = false →
    generate false 0x10 s =
      { s with
        mode := .error, errKind := .missingRequiredField, errField := some .frequency, errOp := 0x10, errValue := 0,
        errOther := 0, response := okResponse }) ∧
  (∀ s t : State, s.errKind ≠ .missingRequiredField → exec .gen s = .next t → t.errKind ≠ .missingRequiredField)

/-- R131: everything `gen` writes depends on FREQUENCY and RATE only through the period. -/
def Obligations.GenDependsOnRatesOnlyThroughThePeriod : Prop :=
  ∀ s s' t t' : State, s.mode = .config → s'.mode = .config → exec .gen s = .next t → exec .gen s' = .next t' →
    t.mode = .stream → t'.mode = .stream →
    s.rate.toNat / s.frequency.toNat = s'.rate.toNat / s'.frequency.toNat →
    s.width = s'.width → s.skip = s'.skip → s.seenFlag .len = s'.seenFlag .len → s.len = s'.len →
    s.repeats = s'.repeats →
    t.period = t'.period ∧ t.count = t'.count ∧ t.phase = t'.phase ∧ t.index = t'.index ∧ t.table = t'.table

/-! ### next and clear -/

/-- R62, R160: in MODE STREAM `next` answers the element at PHASE, sign-extended to the port, advances PHASE with the wrap at
PERIOD, counts the sample, and ends the run with the last one; nothing else changes. -/
def Obligations.NextDeliversTheElementAtPhase : Prop :=
  ∀ (s : State) (T : Table), s.mode = .stream → s.table = some T → s.phase.toNat < T.period.toNat →
    exec .next s = .next
      { s with
        phase := if s.phase.toNat + 1 = s.period.toNat then 0 else s.phase + 1
        index := s.index + 1
        mode := if s.index.toNat + 1 = s.count.toNat then .done else .stream
        response := { nak := false, valid := true, sample := (T.element s.phase.toNat).signExtend 32 } }

/-- R61, R62, R133 (f): no bit of a sample is lost between the quantizer, the table element of WIDTH bits and the 32-bit port. -/
def Obligations.PortSampleIsTheSineSample : Prop :=
  ∀ (T : Table) (i : Nat), i < T.period.toNat →
    (T.element i).toInt = sineSample T.width T.period.toNat i ∧
    ((T.element i).signExtend 32).toInt = sineSample T.width T.period.toNat i

/-- R161, R191, R210: `clear` leaves the reset state, in every mode and whatever came before; only what the host does next is
not its own. -/
def Obligations.ClearReturnsToTheResetState : Prop :=
  ∀ s : State, exec .clear s = .next { State.reset with host := s.host }

/-- R34, R60: no command but `gen` and `clear` changes TABLE, and reading it changes nothing in it. -/
def Obligations.TableIsWrittenByGenAndClearOnly : Prop :=
  ∀ (i : Instr) (s t : State), exec i s = .next t → i ≠ .gen → i ≠ .clear →
    t.table = s.table ∧ ∀ a : Nat, t.table.read a = s.table.read a

/-- R34, R62, R126: after a `gen` that succeeds, TABLE reads at every index below PERIOD as the sine sample of that index, and
has no element at or above PERIOD. That a read there is the fault `tableElementAbsent` is the model's choice (log entry 7,
DESIGN CHOICE): the spec gives such a read no meaning. -/
def Obligations.TableReadsAsGenWroteIt : Prop :=
  ∀ s t : State, s.mode = .config → exec .gen s = .next t → t.mode = .stream → ∀ a : Nat,
    (a < t.period.toNat → t.table.read a = .ok (sineSample t.width t.period.toNat a)) ∧
    (t.period.toNat ≤ a → t.table.read a = .error .tableElementAbsent)

/-! ### Invariants -/

/-- R43: the state invariant holds at reset. -/
def Obligations.StateInvariantHoldsAtReset : Prop := StateInv State.reset

/-- R43: every step keeps the state invariant, clauses (a) to (g), from every state that has it. -/
def Obligations.EveryStepKeepsTheStateInvariant : Prop :=
  ∀ s t : State, StateInv s → step s = .next t → StateInv t

/-- R63, R216: from every state with the invariant the step completes: no access is out of range and nothing hangs. -/
def Obligations.NoStepFromAnInvariantStateStops : Prop :=
  ∀ s : State, StateInv s → ∃ t, step s = .next t

/-- R35 to R39, R179 to R186: the error record holds its reset values outside MODE ERROR; in MODE ERROR it holds a kind the
block can raise, with the field, the opcode and the two values its rule gives it: among them the mask of unset fields
(R179), a width operand outside the legal three (R181), the first zero field (R182), and the blamed field (R185, R186). It
holds at reset and every step keeps it. -/
def Obligations.EveryStepKeepsTheErrorRecordTrue : Prop :=
  RecordInv State.reset ∧ ∀ s t : State, RecordInv s → step s = .next t → RecordInv t

/-- R164, R189, R191, R192: once a run is over, no sequence of host slots without `rst` and `clear` changes anything but the
response; in particular an error record is never overwritten. -/
def Obligations.FinishedRunIsFrozenUntilCleared : Prop :=
  ∀ (n : Nat) (s : State), s.mode = .done ∨ s.mode = .error →
    (∀ p ∈ s.host, p.rst = false ∧ opcodeOf p.cmd ≠ 0x1F) →
    ∃ t : State, Host.Core.run core n s = .next t ∧ t = { s with response := t.response, host := s.host.drop n }

/-! ### The sine sample -/

/-- R140, R141, R142: for every width, every period and every index below it, the sample is the exact real product truncated
toward zero. -/
def Obligations.SineSampleIsTheTruncatedRealSine : Prop :=
  ∀ (w : Width) (P i : Nat), i < P →
    TruncatesTo (((2 : ℝ) ^ (w.bits - 1) - 1) * Real.sin (2 * Real.pi * i / P)) (sineSample w P i)

/-- R143: in the exact cases the sample is 0, MaxAmp or -MaxAmp, and equals the real product. -/
def Obligations.SineSampleExactCases : Prop :=
  (∀ (w : Width) (P : Nat), 1 ≤ P →
    sineSample w P 0 = 0 ∧ (P % 2 = 0 → sineSample w P (P / 2) = 0) ∧
    (P % 4 = 0 → sineSample w P (P / 4) = maxAmp w ∧ sineSample w P (3 * P / 4) = -(maxAmp w : Int))) ∧
  (∀ (w : Width) (P i : Nat), i < P → i = 0 ∨ 2 * i = P ∨ 4 * i = P ∨ 4 * i = 3 * P →
    (sineSample w P i : ℝ) = (maxAmp w : ℝ) * Real.sin (2 * Real.pi * i / P))

/-- R144: the three symmetries of the table, and the most negative number never occurs. -/
def Obligations.SineSampleSymmetries : Prop :=
  (∀ (w : Width) (P i : Nat), 0 < i → i < P → sineSample w P (P - i) = -sineSample w P i) ∧
  (∀ (w : Width) (P i : Nat), P % 2 = 0 → i < P / 2 → sineSample w P (i + P / 2) = -sineSample w P i) ∧
  (∀ (w : Width) (P i : Nat), P % 2 = 0 → 0 < P → i ≤ P / 2 → sineSample w P (P / 2 - i) = sineSample w P i) ∧
  (∀ (w : Width) (P i : Nat), i < P → sineSample w P i ≠ -(2 : Int) ^ (w.bits - 1))

/-- R149: the range of the samples, and where the extremes are reached. -/
def Obligations.SineSampleRange : Prop :=
  maxAmp .w8 = 127 ∧ maxAmp .w16 = 32767 ∧ maxAmp .w32 = 2147483647 ∧
  ∀ (w : Width) (P i : Nat), i < P →
    -(maxAmp w : Int) ≤ sineSample w P i ∧ sineSample w P i ≤ maxAmp w ∧
    (sineSample w P i = maxAmp w ↔ 4 * i = P) ∧ (sineSample w P i = -(maxAmp w : Int) ↔ 4 * i = 3 * P)

/-- R152: the table starts at 0 and ascends, and the table of period 3. -/
def Obligations.TableStartsAtZeroAndAscends : Prop :=
  (∀ (w : Width) (P : Nat), 4 ≤ P →
    sineSample w P 0 = 0 ∧ 0 ≤ sineSample w P 1 ∧
    ((maxAmp w : ℝ) * Real.sin (2 * Real.pi / P) < 1 → sineSample w P 1 = 0)) ∧
  (∀ P : Nat, 798 ≤ P → sineSample .w8 P 1 = 0) ∧
  ([Width.w8, Width.w16, Width.w32].map (fun w => (List.range 3).map (sineSample w 3)) =
    [[0, 109, -109], [0, 28377, -28377], [0, 1859775392, -1859775392]])

/-- R127, R153: the table of length `P` is all zero exactly for the lengths 1 and 2, at every width; from length 3 on some
sample has magnitude 63 or more; so the test `gen` makes is the scan of the whole table. -/
def Obligations.DegenerateTablesAreLengthsOneAndTwo : Prop :=
  (∀ (w : Width) (P : Nat), 1 ≤ P → ((∀ i, i < P → sineSample w P i = 0) ↔ P = 1 ∨ P = 2)) ∧
  (∀ (w : Width) (P : Nat), 3 ≤ P → ∃ i, i < P ∧ 63 ≤ |sineSample w P i|) ∧
  (∀ (w : Width) (P : Nat), allZeroTable P = true ↔ ∀ i, i < P → sineSample w P i = 0)

/-! ### Runs -/

/-- R162: from an armed stream of which nothing has been drawn, the n-th `next` answers the sample of the index
`(SKIP + n) mod PERIOD`, for every `n` below COUNT. -/
def Obligations.NthNextFollowsTheClosedForm : Prop :=
  ∀ (s : State) (n : Nat), StateInv s → s.mode = .stream → s.index = 0 → n < s.count.toNat →
    ∃ t : State, Host.Core.run core (n + 1) { s with host := nextSlots (n + 1) } = .next t ∧
      t.response.nak = false ∧ t.response.valid = true ∧
      t.response.sample.toInt = sineSample s.width s.period.toNat ((s.skip.toNat + n) % s.period.toNat) ∧
      t.index.toNat = n + 1 ∧ t.mode = if n + 1 = s.count.toNat then .done else .stream

/-- R91, R128, R163 (c), R165: the invocation of a configuration that `gen` accepts delivers WIDTH, COUNT = P * n and the
cyclic samples from `skip` on. -/
def Obligations.InvocationDeliversTheCyclicSine : Prop :=
  ∀ (s : State) (f r n k : Nat) (w : Width), 1 ≤ f → 3 * f ≤ r → r < 2 ^ 32 → 1 ≤ n → n < 2 ^ 32 → k < 2 ^ 32 →
    invoke [numericEntry .frequency f, numericEntry .rate r, numericEntry .repeats n, numericEntry .skip k, typeEntry w] s =
      .output w (BitVec.ofNat 64 (r / f * n)) (cyclicSamples w (r / f) k (r / f * n))

/-- R163 (a), (b): `repeats: n` equals `len: n * P`, and `skip: k` equals `skip: k mod P`. -/
def Obligations.RepeatLengthAndSkipEquivalences : Prop :=
  ∀ (s : State) (f r n k : Nat), 1 ≤ f → f ≤ r → r < 2 ^ 32 → 1 ≤ n → n * (r / f) < 2 ^ 32 → k < 2 ^ 32 →
    invoke [numericEntry .frequency f, numericEntry .rate r, numericEntry .skip k, numericEntry .repeats n] s =
      invoke [numericEntry .frequency f, numericEntry .rate r, numericEntry .skip k, numericEntry .len (n * (r / f))] s ∧
    invoke [numericEntry .frequency f, numericEntry .rate r, numericEntry .skip k, numericEntry .repeats n] s =
      invoke [numericEntry .frequency f, numericEntry .rate r, numericEntry .skip (k % (r / f)), numericEntry .repeats n] s

/-- R10, R161: the result of an invocation does not depend on what came before it. -/
def Obligations.InvocationForgetsEarlierRuns : Prop :=
  ∀ (es : List SourceEntry) (s s' : State), invoke es s = invoke es s'

/-- R91, R164: every invocation comes to an end, with its output or with one error. What the front end makes of the entries,
and that its failure ends the invocation before the first command, is in part the model's choice (log entry 13). -/
def Obligations.EveryInvocationFinishes : Prop :=
  ∀ (es : List SourceEntry) (s : State), invoke es s ≠ .unfinished

/-! ### Outputs, codes and the front end -/

/-- R21, R28, R46: each status output shows its register, MODE and WIDTH by the numbers of R21 and R28 (the codes of the error
record are in `ErrorCodesAndFieldIdsAreTheListed`); so two states with equal outputs agree on every register shown. That
FR_LAST is in no output is the model's reading of R46 (log entry 10). -/
def Obligations.StatusOutputsShowTheRegisters : Prop :=
  [Mode.config, .stream, .done, .error].map Mode.code = [0, 1, 2, 3] ∧
  [Width.w8, .w16, .w32].map Width.code = [8, 16, 32] ∧
  (∀ s : State,
    s.status.oMode = s.mode.code ∧ s.status.oSeen = s.seen ∧ s.status.oWidth = s.width.code ∧
    s.status.oPeriod = s.period ∧ s.status.oCount = s.count ∧ s.status.oIndex = s.index ∧ s.status.oPhase = s.phase ∧
    s.status.oErrKind = s.errKind.code ∧ s.status.oErrField = fieldCode s.errField ∧ s.status.oErrOp = s.errOp ∧
    s.status.oErrValue = s.errValue ∧ s.status.oErrOther = s.errOther ∧
    s.status.oFrequency = s.frequency ∧ s.status.oRate = s.rate ∧ s.status.oLen = s.len ∧
    s.status.oRepeats = s.repeats ∧ s.status.oSkip = s.skip) ∧
  (∀ s t : State, s.status = t.status →
    s.mode = t.mode ∧ s.seen = t.seen ∧ s.frequency = t.frequency ∧ s.rate = t.rate ∧ s.len = t.len ∧
    s.repeats = t.repeats ∧ s.skip = t.skip ∧ s.width = t.width ∧ s.period = t.period ∧ s.count = t.count ∧
    s.phase = t.phase ∧ s.index = t.index ∧ s.errKind = t.errKind ∧ s.errField = t.errField ∧ s.errOp = t.errOp ∧
    s.errValue = t.errValue ∧ s.errOther = t.errOther)

/-- R177, R178: the code of every error kind, and the id of every field, which is its opcode and, less 1, its bit of SEEN. -/
def Obligations.ErrorCodesAndFieldIdsAreTheListed : Prop :=
  [ErrKind.none, .unknownField, .duplicateField, .invalidLiteral, .nonPositiveValue, .negativeSkip,
    .conflictingLenRepeats, .frequencyExceedsRate, .degenerateWave, .missingRequiredField].map ErrKind.code
    = [0, 1, 2, 3, 4, 5, 6, 7, 8, 9] ∧
  [ConfigField.frequency, .rate, .len, .repeats, .skip, .type].map (fun f => fieldCode (some f)) = [1, 2, 3, 4, 5, 6] ∧
  fieldCode none = 0 ∧
  ∀ (f : ConfigField) (v : Operand), (entryInstr f v).opcode = f.id.setWidth 8 ∧ f.id.toNat = f.bit + 1

/-- R89, R90: what the front end hands the block for each literal, and with which kind it fails the others. That a `type` value
outside the set is failed by the front end itself, and that an unknown name is passed on as a reserved opcode, are the
model's choice among the ways R89 and R90 allow (log entry 13, DESIGN CHOICE). -/
def Obligations.FrontEndKeepsItsContract : Prop :=
  (∀ (f : ConfigField) (n : Nat), f ≠ .type → n < 2 ^ 32 →
    ∃ w, frontEnd (numericEntry f n) = .ok w ∧ decode w = .ok (entryInstr f (BitVec.ofNat 32 n))) ∧
  (∀ (f : ConfigField) (n : Int), f ≠ .type → 2 ^ 32 ≤ n →
    frontEnd { name := .known f, value := .integer n } = .error .invalidLiteral) ∧
  (∀ (f : ConfigField) (n : Int), f ≠ .type → n < 0 →
    frontEnd { name := .known f, value := .integer n } =
      .error (if f = .skip then .negativeSkip else .nonPositiveValue)) ∧
  (∀ w : Width, ∃ c, frontEnd (typeEntry w) = .ok c ∧ decode c = .ok (.type (BitVec.ofNat 32 w.bits))) ∧
  (∀ f : ConfigField, frontEnd { name := .known f, value := .other } = .error .invalidLiteral) ∧
  (∀ l : Literal, ∃ w, frontEnd { name := .unknown, value := l } = .ok w ∧ isReserved (opcodeOf w) = true)

/-- R89, R90: a type identifier is no value of a numeric field, and fails with InvalidLiteral. That a number is no value of
`type` either, and that the front end fails it itself, is the model's choice (log entry 13, DESIGN CHOICE). -/
def Obligations.FrontEndRejectsMisplacedLiterals : Prop :=
  (∀ (f : ConfigField) (w : Width), f ≠ .type →
    frontEnd { name := .known f, value := .typeName w } = .error .invalidLiteral) ∧
  (∀ n : Int, frontEnd { name := .known .type, value := .integer n } = .error .invalidLiteral)
end

