-- ==== Sys2Proof/Laws/Decode.lean ====
section
/-!
SUPPORT. The parts of a command word, and what the decoder can answer.
-/

namespace Sys2Proof.Laws

@[simp] theorem opcodeOf_commandWord (op : Opcode) (v : Operand) : opcodeOf (commandWord op v) = op := by
  unfold opcodeOf commandWord
  ext i hi
  rw [BitVec.getElem_extractLsb', BitVec.getLsbD_append, if_neg (by omega),
    show 32 + i - 32 = i by omega, BitVec.getLsbD_eq_getElem hi]

@[simp] theorem operandOf_commandWord (op : Opcode) (v : Operand) : operandOf (commandWord op v) = v := by
  unfold operandOf commandWord
  ext i hi
  rw [BitVec.getElem_extractLsb', BitVec.getLsbD_append, if_pos (by omega), Nat.zero_add,
    BitVec.getLsbD_eq_getElem hi]

/-- A command word is its two parts. -/
@[simp] theorem commandWord_parts (w : CommandWord) : commandWord (opcodeOf w) (operandOf w) = w := by
  unfold opcodeOf operandOf commandWord
  ext i hi
  rw [BitVec.getElem_append]
  split
  · rw [BitVec.getElem_extractLsb', Nat.zero_add, BitVec.getLsbD_eq_getElem]
  · rw [BitVec.getElem_extractLsb', show 32 + (i - 32) = i by omega, BitVec.getLsbD_eq_getElem]

@[simp] theorem opcodeOf_encode (i : Instr) : opcodeOf (encode i) = i.opcode := opcodeOf_commandWord _ _

@[simp] theorem operandOf_encode (i : Instr) : operandOf (encode i) = i.operand := operandOf_commandWord _ _

/-- The decoder depends on the word through its two parts only, and the instruction it answers has the word's opcode. -/
theorem decode_opcode {w : CommandWord} {i : Instr} (h : decode w = .ok i) : opcodeOf w = i.opcode := by
  unfold decode at h
  repeat' split at h
  all_goals first
    | (obtain rfl := Except.ok.inj h; assumption)
    | cases h

/-- What the decoder rejects keeps the word's two parts. -/
theorem decode_error {w : CommandWord} {r : DecodeRefusal} (h : decode w = .error r) :
    r = .reserved (opcodeOf w) (operandOf w) := by
  unfold decode at h
  repeat' split at h
  all_goals first
    | exact (Except.error.inj h).symm
    | cases h

end Sys2Proof.Laws
end

