-- ==== Sys2Proof/Laws/State.lean ====
section
/-!
SUPPORT. What each named update of the state leaves in each field, one lemma per field per update.
-/

namespace Sys2Proof.Laws

open Sys2Proof.Machine

variable (s : State)

/-! ### `setSeen`: `SEEN[X] <- 1` -/

@[simp] theorem setSeen_mode (f : ConfigField) : (s.setSeen f).mode = s.mode := rfl
@[simp] theorem setSeen_seen (f : ConfigField) : (s.setSeen f).seen = s.seen ||| BitVec.twoPow 6 f.bit := rfl
@[simp] theorem setSeen_frequency (f : ConfigField) : (s.setSeen f).frequency = s.frequency := rfl
@[simp] theorem setSeen_rate (f : ConfigField) : (s.setSeen f).rate = s.rate := rfl
@[simp] theorem setSeen_len (f : ConfigField) : (s.setSeen f).len = s.len := rfl
@[simp] theorem setSeen_repeats (f : ConfigField) : (s.setSeen f).repeats = s.repeats := rfl
@[simp] theorem setSeen_skip (f : ConfigField) : (s.setSeen f).skip = s.skip := rfl
@[simp] theorem setSeen_width (f : ConfigField) : (s.setSeen f).width = s.width := rfl
@[simp] theorem setSeen_frLast (f : ConfigField) : (s.setSeen f).frLast = s.frLast := rfl
@[simp] theorem setSeen_period (f : ConfigField) : (s.setSeen f).period = s.period := rfl
@[simp] theorem setSeen_count (f : ConfigField) : (s.setSeen f).count = s.count := rfl
@[simp] theorem setSeen_phase (f : ConfigField) : (s.setSeen f).phase = s.phase := rfl
@[simp] theorem setSeen_index (f : ConfigField) : (s.setSeen f).index = s.index := rfl
@[simp] theorem setSeen_table (f : ConfigField) : (s.setSeen f).table = s.table := rfl
@[simp] theorem setSeen_errKind (f : ConfigField) : (s.setSeen f).errKind = s.errKind := rfl
@[simp] theorem setSeen_errField (f : ConfigField) : (s.setSeen f).errField = s.errField := rfl
@[simp] theorem setSeen_errOp (f : ConfigField) : (s.setSeen f).errOp = s.errOp := rfl
@[simp] theorem setSeen_errValue (f : ConfigField) : (s.setSeen f).errValue = s.errValue := rfl
@[simp] theorem setSeen_errOther (f : ConfigField) : (s.setSeen f).errOther = s.errOther := rfl
@[simp] theorem setSeen_response (f : ConfigField) : (s.setSeen f).response = s.response := rfl
@[simp] theorem setSeen_host (f : ConfigField) : (s.setSeen f).host = s.host := rfl

/-! ### `noteFrLast`: the FR_LAST part of an entry command -/

@[simp] theorem noteFrLast_mode (f : ConfigField) : (s.noteFrLast f).mode = s.mode := by cases f <;> rfl
@[simp] theorem noteFrLast_seen (f : ConfigField) : (s.noteFrLast f).seen = s.seen := by cases f <;> rfl
@[simp] theorem noteFrLast_frequency (f : ConfigField) : (s.noteFrLast f).frequency = s.frequency := by cases f <;> rfl
@[simp] theorem noteFrLast_rate (f : ConfigField) : (s.noteFrLast f).rate = s.rate := by cases f <;> rfl
@[simp] theorem noteFrLast_len (f : ConfigField) : (s.noteFrLast f).len = s.len := by cases f <;> rfl
@[simp] theorem noteFrLast_repeats (f : ConfigField) : (s.noteFrLast f).repeats = s.repeats := by cases f <;> rfl
@[simp] theorem noteFrLast_skip (f : ConfigField) : (s.noteFrLast f).skip = s.skip := by cases f <;> rfl
@[simp] theorem noteFrLast_width (f : ConfigField) : (s.noteFrLast f).width = s.width := by cases f <;> rfl
@[simp] theorem noteFrLast_frLast (f : ConfigField) : (s.noteFrLast f).frLast = if f = .frequency then 0 else if f = .rate then 1 else s.frLast :=
  by cases f <;> rfl
@[simp] theorem noteFrLast_period (f : ConfigField) : (s.noteFrLast f).period = s.period := by cases f <;> rfl
@[simp] theorem noteFrLast_count (f : ConfigField) : (s.noteFrLast f).count = s.count := by cases f <;> rfl
@[simp] theorem noteFrLast_phase (f : ConfigField) : (s.noteFrLast f).phase = s.phase := by cases f <;> rfl
@[simp] theorem noteFrLast_index (f : ConfigField) : (s.noteFrLast f).index = s.index := by cases f <;> rfl
@[simp] theorem noteFrLast_table (f : ConfigField) : (s.noteFrLast f).table = s.table := by cases f <;> rfl
@[simp] theorem noteFrLast_errKind (f : ConfigField) : (s.noteFrLast f).errKind = s.errKind := by cases f <;> rfl
@[simp] theorem noteFrLast_errField (f : ConfigField) : (s.noteFrLast f).errField = s.errField := by cases f <;> rfl
@[simp] theorem noteFrLast_errOp (f : ConfigField) : (s.noteFrLast f).errOp = s.errOp := by cases f <;> rfl
@[simp] theorem noteFrLast_errValue (f : ConfigField) : (s.noteFrLast f).errValue = s.errValue := by cases f <;> rfl
@[simp] theorem noteFrLast_errOther (f : ConfigField) : (s.noteFrLast f).errOther = s.errOther := by cases f <;> rfl
@[simp] theorem noteFrLast_response (f : ConfigField) : (s.noteFrLast f).response = s.response := by cases f <;> rfl
@[simp] theorem noteFrLast_host (f : ConfigField) : (s.noteFrLast f).host = s.host := by cases f <;> rfl

/-! ### `writeReg`: `REG[X] <- v` -/

@[simp] theorem writeReg_mode (f : ConfigField) (v : Operand) : (s.writeReg f v).mode = s.mode := by cases f <;> rfl
@[simp] theorem writeReg_seen (f : ConfigField) (v : Operand) : (s.writeReg f v).seen = s.seen := by cases f <;> rfl
@[simp] theorem writeReg_frequency (f : ConfigField) (v : Operand) : (s.writeReg f v).frequency = if f = .frequency then v else s.frequency :=
  by cases f <;> rfl
@[simp] theorem writeReg_rate (f : ConfigField) (v : Operand) : (s.writeReg f v).rate = if f = .rate then v else s.rate :=
  by cases f <;> rfl
@[simp] theorem writeReg_len (f : ConfigField) (v : Operand) : (s.writeReg f v).len = if f = .len then v else s.len :=
  by cases f <;> rfl
@[simp] theorem writeReg_repeats (f : ConfigField) (v : Operand) : (s.writeReg f v).repeats = if f = .repeats then v else s.repeats :=
  by cases f <;> rfl
@[simp] theorem writeReg_skip (f : ConfigField) (v : Operand) : (s.writeReg f v).skip = if f = .skip then v else s.skip :=
  by cases f <;> rfl
@[simp] theorem writeReg_width (f : ConfigField) (v : Operand) : (s.writeReg f v).width = if f = .type then (operandWidth v).getD s.width else s.width :=
  by cases f <;> rfl
@[simp] theorem writeReg_frLast (f : ConfigField) (v : Operand) : (s.writeReg f v).frLast = s.frLast := by cases f <;> rfl
@[simp] theorem writeReg_period (f : ConfigField) (v : Operand) : (s.writeReg f v).period = s.period := by cases f <;> rfl
@[simp] theorem writeReg_count (f : ConfigField) (v : Operand) : (s.writeReg f v).count = s.count := by cases f <;> rfl
@[simp] theorem writeReg_phase (f : ConfigField) (v : Operand) : (s.writeReg f v).phase = s.phase := by cases f <;> rfl
@[simp] theorem writeReg_index (f : ConfigField) (v : Operand) : (s.writeReg f v).index = s.index := by cases f <;> rfl
@[simp] theorem writeReg_table (f : ConfigField) (v : Operand) : (s.writeReg f v).table = s.table := by cases f <;> rfl
@[simp] theorem writeReg_errKind (f : ConfigField) (v : Operand) : (s.writeReg f v).errKind = s.errKind := by cases f <;> rfl
@[simp] theorem writeReg_errField (f : ConfigField) (v : Operand) : (s.writeReg f v).errField = s.errField :=
  by cases f <;> rfl
@[simp] theorem writeReg_errOp (f : ConfigField) (v : Operand) : (s.writeReg f v).errOp = s.errOp := by cases f <;> rfl
@[simp] theorem writeReg_errValue (f : ConfigField) (v : Operand) : (s.writeReg f v).errValue = s.errValue :=
  by cases f <;> rfl
@[simp] theorem writeReg_errOther (f : ConfigField) (v : Operand) : (s.writeReg f v).errOther = s.errOther :=
  by cases f <;> rfl
@[simp] theorem writeReg_response (f : ConfigField) (v : Operand) : (s.writeReg f v).response = s.response :=
  by cases f <;> rfl
@[simp] theorem writeReg_host (f : ConfigField) (v : Operand) : (s.writeReg f v).host = s.host := by cases f <;> rfl

/-! ### `respondOk`: the response of a command that executed -/

@[simp] theorem respondOk_mode : (s.respondOk).mode = s.mode := rfl
@[simp] theorem respondOk_seen : (s.respondOk).seen = s.seen := rfl
@[simp] theorem respondOk_frequency : (s.respondOk).frequency = s.frequency := rfl
@[simp] theorem respondOk_rate : (s.respondOk).rate = s.rate := rfl
@[simp] theorem respondOk_len : (s.respondOk).len = s.len := rfl
@[simp] theorem respondOk_repeats : (s.respondOk).repeats = s.repeats := rfl
@[simp] theorem respondOk_skip : (s.respondOk).skip = s.skip := rfl
@[simp] theorem respondOk_width : (s.respondOk).width = s.width := rfl
@[simp] theorem respondOk_frLast : (s.respondOk).frLast = s.frLast := rfl
@[simp] theorem respondOk_period : (s.respondOk).period = s.period := rfl
@[simp] theorem respondOk_count : (s.respondOk).count = s.count := rfl
@[simp] theorem respondOk_phase : (s.respondOk).phase = s.phase := rfl
@[simp] theorem respondOk_index : (s.respondOk).index = s.index := rfl
@[simp] theorem respondOk_table : (s.respondOk).table = s.table := rfl
@[simp] theorem respondOk_errKind : (s.respondOk).errKind = s.errKind := rfl
@[simp] theorem respondOk_errField : (s.respondOk).errField = s.errField := rfl
@[simp] theorem respondOk_errOp : (s.respondOk).errOp = s.errOp := rfl
@[simp] theorem respondOk_errValue : (s.respondOk).errValue = s.errValue := rfl
@[simp] theorem respondOk_errOther : (s.respondOk).errOther = s.errOther := rfl
@[simp] theorem respondOk_response : (s.respondOk).response = { nak := false, valid := false, sample := 0 } := rfl
@[simp] theorem respondOk_host : (s.respondOk).host = s.host := rfl

/-! ### `respondNak`: `nak` -/

@[simp] theorem respondNak_mode : (s.respondNak).mode = s.mode := rfl
@[simp] theorem respondNak_seen : (s.respondNak).seen = s.seen := rfl
@[simp] theorem respondNak_frequency : (s.respondNak).frequency = s.frequency := rfl
@[simp] theorem respondNak_rate : (s.respondNak).rate = s.rate := rfl
@[simp] theorem respondNak_len : (s.respondNak).len = s.len := rfl
@[simp] theorem respondNak_repeats : (s.respondNak).repeats = s.repeats := rfl
@[simp] theorem respondNak_skip : (s.respondNak).skip = s.skip := rfl
@[simp] theorem respondNak_width : (s.respondNak).width = s.width := rfl
@[simp] theorem respondNak_frLast : (s.respondNak).frLast = s.frLast := rfl
@[simp] theorem respondNak_period : (s.respondNak).period = s.period := rfl
@[simp] theorem respondNak_count : (s.respondNak).count = s.count := rfl
@[simp] theorem respondNak_phase : (s.respondNak).phase = s.phase := rfl
@[simp] theorem respondNak_index : (s.respondNak).index = s.index := rfl
@[simp] theorem respondNak_table : (s.respondNak).table = s.table := rfl
@[simp] theorem respondNak_errKind : (s.respondNak).errKind = s.errKind := rfl
@[simp] theorem respondNak_errField : (s.respondNak).errField = s.errField := rfl
@[simp] theorem respondNak_errOp : (s.respondNak).errOp = s.errOp := rfl
@[simp] theorem respondNak_errValue : (s.respondNak).errValue = s.errValue := rfl
@[simp] theorem respondNak_errOther : (s.respondNak).errOther = s.errOther := rfl
@[simp] theorem respondNak_response : (s.respondNak).response = { nak := true, valid := false, sample := 0 } := rfl
@[simp] theorem respondNak_host : (s.respondNak).host = s.host := rfl

/-! ### `respondSample`: `respond(sample)` -/

@[simp] theorem respondSample_mode (v : BitVec 32) : (s.respondSample v).mode = s.mode := rfl
@[simp] theorem respondSample_seen (v : BitVec 32) : (s.respondSample v).seen = s.seen := rfl
@[simp] theorem respondSample_frequency (v : BitVec 32) : (s.respondSample v).frequency = s.frequency := rfl
@[simp] theorem respondSample_rate (v : BitVec 32) : (s.respondSample v).rate = s.rate := rfl
@[simp] theorem respondSample_len (v : BitVec 32) : (s.respondSample v).len = s.len := rfl
@[simp] theorem respondSample_repeats (v : BitVec 32) : (s.respondSample v).repeats = s.repeats := rfl
@[simp] theorem respondSample_skip (v : BitVec 32) : (s.respondSample v).skip = s.skip := rfl
@[simp] theorem respondSample_width (v : BitVec 32) : (s.respondSample v).width = s.width := rfl
@[simp] theorem respondSample_frLast (v : BitVec 32) : (s.respondSample v).frLast = s.frLast := rfl
@[simp] theorem respondSample_period (v : BitVec 32) : (s.respondSample v).period = s.period := rfl
@[simp] theorem respondSample_count (v : BitVec 32) : (s.respondSample v).count = s.count := rfl
@[simp] theorem respondSample_phase (v : BitVec 32) : (s.respondSample v).phase = s.phase := rfl
@[simp] theorem respondSample_index (v : BitVec 32) : (s.respondSample v).index = s.index := rfl
@[simp] theorem respondSample_table (v : BitVec 32) : (s.respondSample v).table = s.table := rfl
@[simp] theorem respondSample_errKind (v : BitVec 32) : (s.respondSample v).errKind = s.errKind := rfl
@[simp] theorem respondSample_errField (v : BitVec 32) : (s.respondSample v).errField = s.errField := rfl
@[simp] theorem respondSample_errOp (v : BitVec 32) : (s.respondSample v).errOp = s.errOp := rfl
@[simp] theorem respondSample_errValue (v : BitVec 32) : (s.respondSample v).errValue = s.errValue := rfl
@[simp] theorem respondSample_errOther (v : BitVec 32) : (s.respondSample v).errOther = s.errOther := rfl
@[simp] theorem respondSample_response (v : BitVec 32) : (s.respondSample v).response = { nak := false, valid := true, sample := v } :=
  rfl
@[simp] theorem respondSample_host (v : BitVec 32) : (s.respondSample v).host = s.host := rfl

/-! ### `raise`: `raise` -/

@[simp] theorem raise_mode (k : ErrKind) (f : Option ConfigField) (op : Opcode) (v o : Word) : (s.raise k f op v o).mode = .error :=
  rfl
@[simp] theorem raise_seen (k : ErrKind) (f : Option ConfigField) (op : Opcode) (v o : Word) : (s.raise k f op v o).seen = s.seen :=
  rfl
@[simp] theorem raise_frequency (k : ErrKind) (f : Option ConfigField) (op : Opcode) (v o : Word) : (s.raise k f op v o).frequency = s.frequency :=
  rfl
@[simp] theorem raise_rate (k : ErrKind) (f : Option ConfigField) (op : Opcode) (v o : Word) : (s.raise k f op v o).rate = s.rate :=
  rfl
@[simp] theorem raise_len (k : ErrKind) (f : Option ConfigField) (op : Opcode) (v o : Word) : (s.raise k f op v o).len = s.len :=
  rfl
@[simp] theorem raise_repeats (k : ErrKind) (f : Option ConfigField) (op : Opcode) (v o : Word) : (s.raise k f op v o).repeats = s.repeats :=
  rfl
@[simp] theorem raise_skip (k : ErrKind) (f : Option ConfigField) (op : Opcode) (v o : Word) : (s.raise k f op v o).skip = s.skip :=
  rfl
@[simp] theorem raise_width (k : ErrKind) (f : Option ConfigField) (op : Opcode) (v o : Word) : (s.raise k f op v o).width = s.width :=
  rfl
@[simp] theorem raise_frLast (k : ErrKind) (f : Option ConfigField) (op : Opcode) (v o : Word) : (s.raise k f op v o).frLast = s.frLast :=
  rfl
@[simp] theorem raise_period (k : ErrKind) (f : Option ConfigField) (op : Opcode) (v o : Word) : (s.raise k f op v o).period = s.period :=
  rfl
@[simp] theorem raise_count (k : ErrKind) (f : Option ConfigField) (op : Opcode) (v o : Word) : (s.raise k f op v o).count = s.count :=
  rfl
@[simp] theorem raise_phase (k : ErrKind) (f : Option ConfigField) (op : Opcode) (v o : Word) : (s.raise k f op v o).phase = s.phase :=
  rfl
@[simp] theorem raise_index (k : ErrKind) (f : Option ConfigField) (op : Opcode) (v o : Word) : (s.raise k f op v o).index = s.index :=
  rfl
@[simp] theorem raise_table (k : ErrKind) (f : Option ConfigField) (op : Opcode) (v o : Word) : (s.raise k f op v o).table = s.table :=
  rfl
@[simp] theorem raise_errKind (k : ErrKind) (f : Option ConfigField) (op : Opcode) (v o : Word) : (s.raise k f op v o).errKind = k :=
  rfl
@[simp] theorem raise_errField (k : ErrKind) (f : Option ConfigField) (op : Opcode) (v o : Word) : (s.raise k f op v o).errField = f :=
  rfl
@[simp] theorem raise_errOp (k : ErrKind) (f : Option ConfigField) (op : Opcode) (v o : Word) : (s.raise k f op v o).errOp = op :=
  rfl
@[simp] theorem raise_errValue (k : ErrKind) (f : Option ConfigField) (op : Opcode) (v o : Word) : (s.raise k f op v o).errValue = v :=
  rfl
@[simp] theorem raise_errOther (k : ErrKind) (f : Option ConfigField) (op : Opcode) (v o : Word) : (s.raise k f op v o).errOther = o :=
  rfl
@[simp] theorem raise_response (k : ErrKind) (f : Option ConfigField) (op : Opcode) (v o : Word) : (s.raise k f op v o).response = { nak := false, valid := false, sample := 0 } :=
  rfl
@[simp] theorem raise_host (k : ErrKind) (f : Option ConfigField) (op : Opcode) (v o : Word) : (s.raise k f op v o).host = s.host :=
  rfl

/-! ### `toReset`: the return to the reset state -/

@[simp] theorem toReset_mode : (s.toReset).mode = State.reset.mode := rfl
@[simp] theorem toReset_seen : (s.toReset).seen = State.reset.seen := rfl
@[simp] theorem toReset_frequency : (s.toReset).frequency = State.reset.frequency := rfl
@[simp] theorem toReset_rate : (s.toReset).rate = State.reset.rate := rfl
@[simp] theorem toReset_len : (s.toReset).len = State.reset.len := rfl
@[simp] theorem toReset_repeats : (s.toReset).repeats = State.reset.repeats := rfl
@[simp] theorem toReset_skip : (s.toReset).skip = State.reset.skip := rfl
@[simp] theorem toReset_width : (s.toReset).width = State.reset.width := rfl
@[simp] theorem toReset_frLast : (s.toReset).frLast = State.reset.frLast := rfl
@[simp] theorem toReset_period : (s.toReset).period = State.reset.period := rfl
@[simp] theorem toReset_count : (s.toReset).count = State.reset.count := rfl
@[simp] theorem toReset_phase : (s.toReset).phase = State.reset.phase := rfl
@[simp] theorem toReset_index : (s.toReset).index = State.reset.index := rfl
@[simp] theorem toReset_table : (s.toReset).table = State.reset.table := rfl
@[simp] theorem toReset_errKind : (s.toReset).errKind = State.reset.errKind := rfl
@[simp] theorem toReset_errField : (s.toReset).errField = State.reset.errField := rfl
@[simp] theorem toReset_errOp : (s.toReset).errOp = State.reset.errOp := rfl
@[simp] theorem toReset_errValue : (s.toReset).errValue = State.reset.errValue := rfl
@[simp] theorem toReset_errOther : (s.toReset).errOther = State.reset.errOther := rfl
@[simp] theorem toReset_response : (s.toReset).response = State.reset.response := rfl
@[simp] theorem toReset_host : (s.toReset).host = s.host := rfl

/-! ### `arm`: the commit of `gen` -/

@[simp] theorem arm_mode (P : Word) : (s.arm P).mode = .stream := rfl
@[simp] theorem arm_seen (P : Word) : (s.arm P).seen = s.seen := rfl
@[simp] theorem arm_frequency (P : Word) : (s.arm P).frequency = s.frequency := rfl
@[simp] theorem arm_rate (P : Word) : (s.arm P).rate = s.rate := rfl
@[simp] theorem arm_len (P : Word) : (s.arm P).len = s.len := rfl
@[simp] theorem arm_repeats (P : Word) : (s.arm P).repeats = s.repeats := rfl
@[simp] theorem arm_skip (P : Word) : (s.arm P).skip = s.skip := rfl
@[simp] theorem arm_width (P : Word) : (s.arm P).width = s.width := rfl
@[simp] theorem arm_frLast (P : Word) : (s.arm P).frLast = s.frLast := rfl
@[simp] theorem arm_period (P : Word) : (s.arm P).period = P := rfl
@[simp] theorem arm_count (P : Word) : (s.arm P).count = s.outputCount P := rfl
@[simp] theorem arm_phase (P : Word) : (s.arm P).phase = s.skip % P := rfl
@[simp] theorem arm_index (P : Word) : (s.arm P).index = 0 := rfl
@[simp] theorem arm_table (P : Word) : (s.arm P).table = Memory.fill s.width P := rfl
@[simp] theorem arm_errKind (P : Word) : (s.arm P).errKind = s.errKind := rfl
@[simp] theorem arm_errField (P : Word) : (s.arm P).errField = s.errField := rfl
@[simp] theorem arm_errOp (P : Word) : (s.arm P).errOp = s.errOp := rfl
@[simp] theorem arm_errValue (P : Word) : (s.arm P).errValue = s.errValue := rfl
@[simp] theorem arm_errOther (P : Word) : (s.arm P).errOther = s.errOther := rfl
@[simp] theorem arm_response (P : Word) : (s.arm P).response = { nak := false, valid := false, sample := 0 } := rfl
@[simp] theorem arm_host (P : Word) : (s.arm P).host = s.host := rfl

/-! ### `advance`: the register part of `next` -/

@[simp] theorem advance_mode : (s.advance).mode = if s.index.toNat + 1 = s.count.toNat then .done else s.mode := rfl
@[simp] theorem advance_seen : (s.advance).seen = s.seen := rfl
@[simp] theorem advance_frequency : (s.advance).frequency = s.frequency := rfl
@[simp] theorem advance_rate : (s.advance).rate = s.rate := rfl
@[simp] theorem advance_len : (s.advance).len = s.len := rfl
@[simp] theorem advance_repeats : (s.advance).repeats = s.repeats := rfl
@[simp] theorem advance_skip : (s.advance).skip = s.skip := rfl
@[simp] theorem advance_width : (s.advance).width = s.width := rfl
@[simp] theorem advance_frLast : (s.advance).frLast = s.frLast := rfl
@[simp] theorem advance_period : (s.advance).period = s.period := rfl
@[simp] theorem advance_count : (s.advance).count = s.count := rfl
@[simp] theorem advance_phase : (s.advance).phase = if s.phase.toNat + 1 = s.period.toNat then 0 else s.phase + 1 := rfl
@[simp] theorem advance_index : (s.advance).index = s.index + 1 := rfl
@[simp] theorem advance_table : (s.advance).table = s.table := rfl
@[simp] theorem advance_errKind : (s.advance).errKind = s.errKind := rfl
@[simp] theorem advance_errField : (s.advance).errField = s.errField := rfl
@[simp] theorem advance_errOp : (s.advance).errOp = s.errOp := rfl
@[simp] theorem advance_errValue : (s.advance).errValue = s.errValue := rfl
@[simp] theorem advance_errOther : (s.advance).errOther = s.errOther := rfl
@[simp] theorem advance_response : (s.advance).response = s.response := rfl
@[simp] theorem advance_host : (s.advance).host = s.host := rfl

/-! ### `present`: the host presents a word -/

@[simp] theorem present_mode (w : CommandWord) : (s.present w).mode = s.mode := rfl
@[simp] theorem present_seen (w : CommandWord) : (s.present w).seen = s.seen := rfl
@[simp] theorem present_frequency (w : CommandWord) : (s.present w).frequency = s.frequency := rfl
@[simp] theorem present_rate (w : CommandWord) : (s.present w).rate = s.rate := rfl
@[simp] theorem present_len (w : CommandWord) : (s.present w).len = s.len := rfl
@[simp] theorem present_repeats (w : CommandWord) : (s.present w).repeats = s.repeats := rfl
@[simp] theorem present_skip (w : CommandWord) : (s.present w).skip = s.skip := rfl
@[simp] theorem present_width (w : CommandWord) : (s.present w).width = s.width := rfl
@[simp] theorem present_frLast (w : CommandWord) : (s.present w).frLast = s.frLast := rfl
@[simp] theorem present_period (w : CommandWord) : (s.present w).period = s.period := rfl
@[simp] theorem present_count (w : CommandWord) : (s.present w).count = s.count := rfl
@[simp] theorem present_phase (w : CommandWord) : (s.present w).phase = s.phase := rfl
@[simp] theorem present_index (w : CommandWord) : (s.present w).index = s.index := rfl
@[simp] theorem present_table (w : CommandWord) : (s.present w).table = s.table := rfl
@[simp] theorem present_errKind (w : CommandWord) : (s.present w).errKind = s.errKind := rfl
@[simp] theorem present_errField (w : CommandWord) : (s.present w).errField = s.errField := rfl
@[simp] theorem present_errOp (w : CommandWord) : (s.present w).errOp = s.errOp := rfl
@[simp] theorem present_errValue (w : CommandWord) : (s.present w).errValue = s.errValue := rfl
@[simp] theorem present_errOther (w : CommandWord) : (s.present w).errOther = s.errOther := rfl
@[simp] theorem present_response (w : CommandWord) : (s.present w).response = s.response := rfl
@[simp] theorem present_host (w : CommandWord) : (s.present w).host = HostInput.command w :: s.host := rfl

end Sys2Proof.Laws
end

