-- ==== Sys2Proof/Laws/Ops.lean ====
section
/-!
SUPPORT. For each shared operation, once, everything it can do.
-/

namespace Sys2Proof.Laws

open Sys2Proof.Machine Sys2Proof.Safety

/-! ### Mode gating (R86) -/

theorem whenMode_in {m : Mode} {run : State → Result} {s : State} (h : s.mode = m) : whenMode m run s = run s :=
  if_pos h

theorem whenMode_out {m : Mode} {run : State → Result} {s : State} (h : s.mode ≠ m) :
    whenMode m run s = .next s.respondNak :=
  if_neg h

/-- A gated command runs in its mode, or is answered `nak`. -/
theorem whenMode_next {m : Mode} {run : State → Result} {s t : State} (h : whenMode m run s = .next t) :
    (s.mode = m ∧ run s = .next t) ∨ (s.mode ≠ m ∧ t = s.respondNak) := by
  by_cases hm : s.mode = m
  · exact .inl ⟨hm, by rwa [whenMode_in hm] at h⟩
  · rw [whenMode_out hm] at h
    exact .inr ⟨hm, (Host.Outcome.next.inj h).symm⟩

/-! ### Flags (R22, R42) -/

theorem bit_lt (f : ConfigField) : f.bit < 6 := by cases f <;> decide

theorem bit_inj {f g : ConfigField} : f.bit = g.bit ↔ f = g := by
  constructor
  · cases f <;> cases g <;> decide
  · rintro rfl; rfl

/-- `SEEN[X] <- 1` sets the flag of X and leaves the others. -/
@[simp] theorem seenFlag_setSeen (f g : ConfigField) (s : State) :
    (s.setSeen f).seenFlag g = (s.seenFlag g || decide (f = g)) := by
  unfold State.seenFlag State.setSeen
  rw [BitVec.getLsbD_or, BitVec.getLsbD_twoPow]
  simp [bit_lt f, bit_inj]

/-- A state with the same SEEN register has the same flags. -/
theorem seenFlag_congr {s t : State} (h : t.seen = s.seen) (f : ConfigField) : t.seenFlag f = s.seenFlag f := by
  unfold State.seenFlag; rw [h]

/-! No other operation but the return to reset touches the flags. -/

@[simp] theorem seenFlag_raise (k : ErrKind) (f : Option ConfigField) (op : Opcode) (v o : Word) (s : State)
    (g : ConfigField) : (s.raise k f op v o).seenFlag g = s.seenFlag g := rfl

@[simp] theorem seenFlag_respondOk (s : State) (g : ConfigField) : s.respondOk.seenFlag g = s.seenFlag g := rfl

@[simp] theorem seenFlag_respondNak (s : State) (g : ConfigField) : s.respondNak.seenFlag g = s.seenFlag g := rfl

@[simp] theorem seenFlag_respondSample (v : BitVec 32) (s : State) (g : ConfigField) :
    (s.respondSample v).seenFlag g = s.seenFlag g := rfl

@[simp] theorem seenFlag_arm (P : Word) (s : State) (g : ConfigField) : (s.arm P).seenFlag g = s.seenFlag g := rfl

@[simp] theorem seenFlag_advance (s : State) (g : ConfigField) : s.advance.seenFlag g = s.seenFlag g := rfl

@[simp] theorem seenFlag_noteFrLast (f : ConfigField) (s : State) (g : ConfigField) :
    (s.noteFrLast f).seenFlag g = s.seenFlag g := by cases f <;> rfl

@[simp] theorem seenFlag_writeReg (f : ConfigField) (v : Operand) (s : State) (g : ConfigField) :
    (s.writeReg f v).seenFlag g = s.seenFlag g := by cases f <;> rfl

@[simp] theorem seenFlag_reset (g : ConfigField) : State.reset.seenFlag g = false := by cases g <;> rfl

@[simp] theorem seenFlag_toReset (s : State) (g : ConfigField) : s.toReset.seenFlag g = false :=
  (seenFlag_congr (s := State.reset) rfl g).trans (seenFlag_reset g)

/-- The mask of unset fields as R179 writes it. -/
theorem unsetMask_eq (s : State) : s.unsetMask = (~~~s.seen &&& 0b111111#6).setWidth 32 := by
  rw [show (0b111111#6) = BitVec.allOnes 6 from rfl, BitVec.and_allOnes]
  rfl

/-- The blamed field is `frequency` or `rate` (R125). -/
theorem blame_cases (s : State) : s.blame = .frequency ∨ s.blame = .rate := by
  unfold State.blame
  repeat' split
  all_goals simp

/-! ### The entry commands (R100) -/

/-- Everything an entry command can do in MODE CONFIG: duplicate, conflict, illegal width, or the field is defined. -/
theorem entry_cases (f : ConfigField) (op : Opcode) (v : Operand) (s : State) :
    (s.seenFlag f = true ∧ entry f op v s = s.raise .duplicateField (some f) op v (s.reg f)) ∨
    (s.seenFlag f = false ∧ ∃ g, s.excludedBy f = some g ∧
      entry f op v s = s.raise .conflictingLenRepeats (some f) op v (s.reg g)) ∨
    (s.seenFlag f = false ∧ s.excludedBy f = none ∧ f = .type ∧ operandWidth v = none ∧
      entry f op v s = s.raise .invalidLiteral (some .type) op v 0) ∨
    (s.seenFlag f = false ∧ s.excludedBy f = none ∧ (f = .type → operandWidth v ≠ none) ∧
      entry f op v s = (((s.writeReg f v).setSeen f).noteFrLast f).respondOk) := by
  unfold entry
  by_cases hseen : s.seenFlag f = true
  · exact .inl ⟨hseen, by rw [if_pos hseen]⟩
  · have hfalse : s.seenFlag f = false := by simpa using hseen
    rw [if_neg hseen]
    cases hex : s.excludedBy f with
    | some g => exact .inr (.inl ⟨hfalse, g, rfl, rfl⟩)
    | none =>
      by_cases hty : f = .type ∧ operandWidth v = none
      · exact .inr (.inr (.inl ⟨hfalse, rfl, hty.1, hty.2, by simp [hty]⟩))
      · exact .inr (.inr (.inr ⟨hfalse, rfl, fun h1 h2 => hty ⟨h1, h2⟩, by simp [hty]⟩))

/-- The conflicting field, when there is one (R100). -/
theorem excludedBy_some {f g : ConfigField} {s : State} (h : s.excludedBy f = some g) :
    (f = .len ∧ g = .repeats ∧ s.seenFlag .repeats = true) ∨
    (f = .repeats ∧ g = .len ∧ s.seenFlag .len = true) := by
  unfold State.excludedBy at h
  split at h
  · next h1 => obtain rfl := Option.some.inj h; exact .inl ⟨h1.1, rfl, h1.2⟩
  · split at h
    · next h1 => obtain rfl := Option.some.inj h; exact .inr ⟨h1.1, rfl, h1.2⟩
    · cases h

/-- No conflict: not both of `len` and `repeats` (R100). -/
theorem excludedBy_none {f : ConfigField} {s : State} (h : s.excludedBy f = none) :
    (f = .len → s.seenFlag .repeats = false) ∧ (f = .repeats → s.seenFlag .len = false) := by
  unfold State.excludedBy at h
  split at h
  · cases h
  · next h1 =>
    split at h
    · cases h
    · next h2 =>
      constructor
      · intro hf; simpa [hf] using h1
      · intro hf; simpa [hf] using h2

/-- What each entry command is: `Entry(X, v)` with the opcode of the field, gated to MODE CONFIG (R101 to R106). -/
theorem exec_entryInstr (f : ConfigField) (v : Operand) (s : State) :
    exec (entryInstr f v) s = whenMode .config (fun t => .next (entry f (entryInstr f v).opcode v t)) s := by
  cases f <;> rfl

/-! ### `gen` (R120) -/

/-- The first zero field, case by case: `frequency`, `rate`, a defined `len`, `repeats`, with no zero before it (R122). -/
theorem firstZeroField_some {s : State} {f : ConfigField} (h : s.firstZeroField = some f) :
    (f = .frequency ∧ s.frequency = 0) ∨
    (f = .rate ∧ s.frequency ≠ 0 ∧ s.rate = 0) ∨
    (f = .len ∧ s.frequency ≠ 0 ∧ s.rate ≠ 0 ∧ s.seenFlag .len = true ∧ s.len = 0) ∨
    (f = .repeats ∧ s.frequency ≠ 0 ∧ s.rate ≠ 0 ∧ (s.seenFlag .len = true → s.len ≠ 0) ∧ s.repeats = 0) := by
  unfold State.firstZeroField at h
  repeat' split at h
  all_goals first
    | (obtain rfl := Option.some.inj h; simp_all)
    | cases h

/-- No field fails the positivity pass (R122). -/
theorem firstZeroField_none {s : State} (h : s.firstZeroField = none) :
    s.frequency ≠ 0 ∧ s.rate ≠ 0 ∧ (s.seenFlag .len = true → s.len ≠ 0) ∧ s.repeats ≠ 0 := by
  unfold State.firstZeroField at h
  repeat' split at h
  all_goals first
    | exact ⟨‹_›, ‹_›, fun h1 h2 => ‹¬(_ ∧ _)› ⟨h1, h2⟩, ‹_›⟩
    | cases h

/-- Everything `gen` can do in MODE CONFIG: the four errors in the order of their tests, or the stream is armed. -/
theorem generate_cases (b : Bool) (op : Opcode) (s : State) :
    (b = false ∧ s.seenFlag .frequency = false ∧
      generate b op s = s.raise .missingRequiredField (some .frequency) op 0 0) ∨
    (∃ f, s.firstZeroField = some f ∧ generate b op s = s.raise .nonPositiveValue (some f) op 0 0) ∨
    (s.firstZeroField = none ∧ s.periodLength.toNat < 2 ∧
      generate b op s =
        s.raise .frequencyExceedsRate (some s.blame) op (s.reg s.blame) (s.reg (otherOfPair s.blame))) ∨
    (s.firstZeroField = none ∧ s.periodLength.toNat = 2 ∧
      generate b op s = s.raise .degenerateWave (some s.blame) op (s.reg s.blame) (s.reg (otherOfPair s.blame))) ∨
    (s.firstZeroField = none ∧ 3 ≤ s.periodLength.toNat ∧ generate b op s = s.arm s.periodLength) := by
  unfold generate
  by_cases hreq : b = false ∧ s.seenFlag .frequency = false
  · exact .inl ⟨hreq.1, hreq.2, if_pos hreq⟩
  · rw [if_neg hreq]
    refine .inr ?_
    cases hz : s.firstZeroField with
    | some f => exact .inl ⟨f, rfl, rfl⟩
    | none =>
      refine .inr ?_
      dsimp only
      by_cases hshort : s.periodLength.toNat < Config.minPeriod
      · exact .inl ⟨rfl, hshort, if_pos hshort⟩
      · rw [if_neg hshort]
        have hge : 2 ≤ s.periodLength.toNat := not_lt.mp hshort
        by_cases hzero : allZeroTable s.periodLength.toNat = true
        · have hle : s.periodLength.toNat ≤ 2 := by simpa [allZeroTable] using hzero
          exact .inr (.inl ⟨rfl, by omega, if_pos hzero⟩)
        · have hgt : ¬ s.periodLength.toNat ≤ 2 := by simpa [allZeroTable] using hzero
          exact .inr (.inr ⟨rfl, by omega, if_neg hzero⟩)

/-- `gen` is `generate` with the parameter of R6, gated to MODE CONFIG. -/
theorem exec_gen (s : State) :
    exec .gen s = whenMode .config (fun t => .next (generate true 0x10 t)) s := rfl

/-- The period length as a number (R123). -/
theorem periodLength_toNat (s : State) : s.periodLength.toNat = s.rate.toNat / s.frequency.toNat :=
  BitVec.toNat_udiv

/-! ### TABLE and `next` (R62, R160) -/

/-- A table of at least three elements is in canonical form. -/
theorem wf_fill {w : Width} {P : Word} (h : 3 ≤ P.toNat) : (Memory.fill w P).wf = true := by
  simpa [Memory.wf, Memory.fill] using h

/-- The memory after reset is in canonical form. -/
theorem wf_reset : State.reset.table.wf = true := rfl

/-- What a read answers: the element, which exists, or the fault. -/
theorem read_ok {m : Memory} {i : Nat} {v : Int} (h : m.read i = .ok v) :
    ∃ t, m = some t ∧ i < t.period.toNat ∧ v = (t.element i).toInt := by
  unfold Memory.read at h
  split at h
  · cases h
  · next t =>
    split at h
    · next hi => exact ⟨t, rfl, hi, (Except.ok.inj h).symm⟩
    · cases h

theorem read_some {t : Table} {i : Nat} (h : i < t.period.toNat) :
    Memory.read (some t) i = .ok (t.element i).toInt := if_pos h

/-- What `gen` wrote at `i` is what `next` reads at `i` (R62), below the period; above it there is nothing. -/
theorem read_fill (w : Width) (P : Word) (i : Nat) :
    (Memory.fill w P).read i =
      if i < P.toNat then .ok (BitVec.ofInt w.bits (sineSample w P.toNat i)).toInt else .error .tableElementAbsent := rfl

/-- Everything the delivery of a sample can do: it delivers the element at PHASE, or faults because there is none. -/
theorem deliver_cases (s : State) :
    (∃ t, s.table = some t ∧ s.phase.toNat < t.period.toNat ∧
      deliver s = .next (s.advance.respondSample (sext32 (t.element s.phase.toNat).toInt))) ∨
    deliver s = .fault .tableElementAbsent := by
  unfold deliver
  split
  · next v h =>
    obtain ⟨t, ht, hi, rfl⟩ := read_ok h
    exact .inl ⟨t, ht, hi, rfl⟩
  · next r h => cases r; exact .inr rfl

theorem exec_next (s : State) : exec .next s = whenMode .stream deliver s := rfl

theorem exec_clear (s : State) : exec .clear s = .next s.toReset := rfl

/-! ### One command -/

/-- Every command is an entry command, `gen`, `next` or `clear` (R84). -/
theorem instr_cases (i : Instr) : (∃ f v, i = entryInstr f v) ∨ i = .gen ∨ i = .next ∨ i = .clear := by
  cases i with
  | frequency v => exact .inl ⟨.frequency, v, rfl⟩
  | rate v => exact .inl ⟨.rate, v, rfl⟩
  | len v => exact .inl ⟨.len, v, rfl⟩
  | repeats v => exact .inl ⟨.repeats, v, rfl⟩
  | skip v => exact .inl ⟨.skip, v, rfl⟩
  | type v => exact .inl ⟨.type, v, rfl⟩
  | gen => exact .inr (.inl rfl)
  | next => exact .inr (.inr (.inl rfl))
  | clear => exact .inr (.inr (.inr rfl))

/-- Everything a command can do when it answers a next state: `nak` out of its mode, an entry, a generation, a delivery, or
the reset. -/
theorem exec_cases {i : Instr} {s t : State} (h : exec i s = .next t) :
    (executesIn s.mode i.opcode = false ∧ t = s.respondNak) ∨
    (∃ f v, i = entryInstr f v ∧ s.mode = .config ∧ t = entry f i.opcode v s) ∨
    (i = .gen ∧ s.mode = .config ∧ t = generate true 0x10 s) ∨
    (i = .next ∧ s.mode = .stream ∧ ∃ T, s.table = some T ∧ s.phase.toNat < T.period.toNat ∧
      t = s.advance.respondSample (sext32 (T.element s.phase.toNat).toInt)) ∨
    (i = .clear ∧ t = s.toReset) := by
  rcases instr_cases i with ⟨f, v, rfl⟩ | rfl | rfl | rfl
  · rw [exec_entryInstr] at h
    rcases whenMode_next h with ⟨hm, ht⟩ | ⟨hm, ht⟩
    · exact .inr (.inl ⟨f, v, rfl, hm, (Host.Outcome.next.inj ht).symm⟩)
    · refine .inl ⟨?_, ht⟩
      cases f <;> cases hs : s.mode <;> first | rfl | exact absurd hs hm
  · rw [exec_gen] at h
    rcases whenMode_next h with ⟨hm, ht⟩ | ⟨hm, ht⟩
    · exact .inr (.inr (.inl ⟨rfl, hm, (Host.Outcome.next.inj ht).symm⟩))
    · refine .inl ⟨?_, ht⟩
      cases hs : s.mode <;> first | rfl | exact absurd hs hm
  · rw [exec_next] at h
    rcases whenMode_next h with ⟨hm, ht⟩ | ⟨hm, ht⟩
    · rcases deliver_cases s with ⟨T, hT, hp, hd⟩ | hd
      · rw [hd] at ht
        exact .inr (.inr (.inr (.inl ⟨rfl, hm, T, hT, hp, (Host.Outcome.next.inj ht).symm⟩)))
      · rw [hd] at ht; cases ht
    · refine .inl ⟨?_, ht⟩
      cases hs : s.mode <;> first | rfl | exact absurd hs hm
  · exact .inr (.inr (.inr (.inr ⟨rfl, (Host.Outcome.next.inj h).symm⟩)))

/-- A reserved opcode raises UnknownField, gated to MODE CONFIG (R179). -/
theorem execReserved_eq (op : Opcode) (v : Operand) (s : State) :
    execReserved (.reserved op v) s =
      whenMode .config (fun t => .next (t.raise .unknownField none op v t.unsetMask)) s := rfl

/-! ### The step (R87) -/

/-- Everything a step can do with the next slot of the host. -/
theorem step_cases (s : State) :
    (s.host = [] ∧ step s = .next s) ∨
    ∃ i rest, s.host = i :: rest ∧
      ((i.rst = true ∧ step s = .next { s with host := rest }.toReset) ∨
       (i.rst = false ∧ i.cmdValid = false ∧ step s = .next { s with host := rest }) ∨
       (i.rst = false ∧ i.cmdValid = true ∧
         ((∃ c, decode i.cmd = .ok c ∧ step s = exec c { s with host := rest }) ∨
          (∃ r, decode i.cmd = .error r ∧ step s = execReserved r { s with host := rest })))) := by
  cases hh : s.host with
  | nil => exact .inl ⟨rfl, by simp [step, State.takeInput, hh]⟩
  | cons i rest =>
    refine .inr ⟨i, rest, rfl, ?_⟩
    cases hr : i.rst with
    | true => exact .inl ⟨rfl, by simp [step, State.takeInput, hh, hostEvent, hr]⟩
    | false =>
      refine .inr ?_
      cases hv : i.cmdValid with
      | false => exact .inl ⟨rfl, rfl, by simp [step, State.takeInput, hh, hostEvent, hr, hv]⟩
      | true =>
        refine .inr ⟨rfl, rfl, ?_⟩
        cases hd : decode i.cmd with
        | ok c => exact .inl ⟨c, rfl, by simp [step, State.takeInput, hh, hostEvent, hr, hv, hd]⟩
        | error r => exact .inr ⟨r, rfl, by simp [step, State.takeInput, hh, hostEvent, hr, hv, hd]⟩

end Sys2Proof.Laws
end

