-- ==== Sys2Proof/Laws/Memory.lean ====
section
/-!
SUPPORT. Every command and every step keeps the canonical form of TABLE.
-/

namespace Sys2Proof.Laws

open Sys2Proof.Machine

/-- An entry command leaves TABLE as it is. -/
theorem entry_table (f : ConfigField) (op : Opcode) (v : Operand) (s : State) : (entry f op v s).table = s.table := by
  rcases entry_cases f op v s with ⟨-, h⟩ | ⟨-, g, -, h⟩ | ⟨-, -, -, -, h⟩ | ⟨-, -, -, h⟩ <;> simp [h]

/-- `gen` fills TABLE with a table in canonical form, or leaves it as it is. -/
theorem generate_table (b : Bool) (op : Opcode) (s : State) :
    (generate b op s).table = s.table ∨ (generate b op s).table.wf = true := by
  rcases generate_cases b op s with ⟨-, -, h⟩ | ⟨f, -, h⟩ | ⟨-, -, h⟩ | ⟨-, -, h⟩ | ⟨-, h3, h⟩
  · exact .inl (by simp [h])
  · exact .inl (by simp [h])
  · exact .inl (by simp [h])
  · exact .inl (by simp [h])
  · exact .inr (by rw [h, arm_table]; exact wf_fill h3)

/-- Every command that answers a next state keeps the canonical form. -/
theorem exec_keeps_wf {i : Instr} {s t : State} (hs : s.table.wf = true) (h : exec i s = .next t) : t.table.wf = true := by
  rcases exec_cases h with ⟨-, rfl⟩ | ⟨f, v, -, -, rfl⟩ | ⟨-, -, rfl⟩ | ⟨-, -, T, -, -, rfl⟩ | ⟨-, rfl⟩
  · exact hs
  · rw [entry_table]; exact hs
  · rcases generate_table true 0x10 s with hk | hk
    · rw [hk]; exact hs
    · exact hk
  · exact hs
  · rfl

/-- Every step that answers a next state keeps the canonical form. -/
theorem step_keeps_wf {s t : State} (hs : s.table.wf = true) (h : step s = .next t) : t.table.wf = true := by
  rcases step_cases s with ⟨-, h0⟩ | ⟨i, rest, -, ⟨-, h0⟩ | ⟨-, -, h0⟩ | ⟨-, -, ⟨c, -, h0⟩ | ⟨r, -, h0⟩⟩⟩
  · rw [h0] at h; rw [← Host.Outcome.next.inj h]; exact hs
  · rw [h0] at h; rw [← Host.Outcome.next.inj h]; rfl
  · rw [h0] at h; rw [← Host.Outcome.next.inj h]; exact hs
  · rw [h0] at h; exact exec_keeps_wf (s := { s with host := rest }) hs h
  · rw [h0] at h
    cases r
    rw [execReserved_eq] at h
    rcases whenMode_next h with ⟨-, ht⟩ | ⟨-, rfl⟩
    · rw [← Host.Outcome.next.inj ht]; exact hs
    · exact hs

end Sys2Proof.Laws
end

