-- ==== Sys2Proof/Laws/PerInstr.lean ====
section
/-!
SUPPORT. Statements made for every command, one lemma per constructor of Instr.
-/

/-- The encoding of a command holds its opcode in bits 39:32 and its operand in bits 31:0, and the opcode is assigned. -/
def Sys2Proof.Laws.EncodedParts.Statement (i : Sys2Proof.Instr) : Prop :=
  Sys2Proof.opcodeOf (Sys2Proof.encode i) = i.opcode ∧ Sys2Proof.operandOf (Sys2Proof.encode i) = i.operand ∧
  Sys2Proof.isReserved i.opcode = false

namespace Sys2Proof.Laws.EncodedParts

theorem frequency (v : Operand) : Statement (.frequency v) := ⟨opcodeOf_encode _, operandOf_encode _, rfl⟩

theorem rate (v : Operand) : Statement (.rate v) := ⟨opcodeOf_encode _, operandOf_encode _, rfl⟩

theorem len (v : Operand) : Statement (.len v) := ⟨opcodeOf_encode _, operandOf_encode _, rfl⟩

theorem repeats (v : Operand) : Statement (.repeats v) := ⟨opcodeOf_encode _, operandOf_encode _, rfl⟩

theorem skip (v : Operand) : Statement (.skip v) := ⟨opcodeOf_encode _, operandOf_encode _, rfl⟩

theorem type (v : Operand) : Statement (.type v) := ⟨opcodeOf_encode _, operandOf_encode _, rfl⟩

theorem gen : Statement .gen := ⟨opcodeOf_encode _, operandOf_encode _, rfl⟩

theorem next : Statement .next := ⟨opcodeOf_encode _, operandOf_encode _, rfl⟩

theorem clear : Statement .clear := ⟨opcodeOf_encode _, operandOf_encode _, rfl⟩

end Sys2Proof.Laws.EncodedParts
end

