-- ==== Sys2Proof/Laws/Runs.lean ====
section
/-!
SUPPORT. Runs of the machine and of an invocation, one command at a time.
-/

namespace Sys2Proof.Laws

open Sys2Proof.Machine

/-- A run of `n + 1` steps is one step and a run of `n`. -/
theorem run_succ (M : Host.Core) {n : Nat} {s t : M.State} (h : M.step s = .next t) : M.run (n + 1) s = M.run n t := by
  simp only [Host.Core.run, h]

/-- The step on a presented word is the command it decodes to, or the effect of its reserved opcode (R87). -/
theorem step_present (w : CommandWord) (s : State) :
    step (s.present w) = match decode w with
      | .ok i => exec i s
      | .error r => execReserved r s := by
  show (match decode w with
      | .ok i => exec i s
      | .error r => execReserved r s) = _
  cases decode w <;> rfl

/-- Words issued in order: the first, then the others. -/
theorem issueAll_cons {w : CommandWord} {ws : List CommandWord} {s t : State} (h : issue w s = .next t) :
    issueAll (w :: ws) s = issueAll ws t := by
  rw [issueAll, h]

/-- Two lists of words issued one after the other. -/
theorem issueAll_append {ws vs : List CommandWord} {s t : State} (h : issueAll ws s = .next t) :
    issueAll (ws ++ vs) s = issueAll vs t := by
  induction ws generalizing s with
  | nil => cases h; rfl
  | cons w ws ih =>
    rw [List.cons_append]
    cases hw : issue w s with
    | next u =>
      rw [issueAll_cons hw] at h ⊢
      exact ih h
    | fault r => rw [issueAll, hw] at h; cases h
    | refused r => rw [issueAll, hw] at h; cases h

/-- Samples collected: that of the first word, then the others. -/
theorem collectSamples_cons {w : CommandWord} {ws : List CommandWord} {s t : State} (h : issue w s = .next t) :
    collectSamples (w :: ws) s = (collectSamples ws t).map (fun r => (t.response.sample :: r.1, r.2)) := by
  rw [collectSamples, h]

/-- The words an accepted source entry can become (R89): an entry command, or the reserved opcode 0x00. -/
theorem frontEnd_ok {e : SourceEntry} {w : CommandWord} (h : frontEnd e = .ok w) :
    (∃ f v, w = encode (entryInstr f v)) ∨ ∃ v, w = commandWord 0x00 v := by
  obtain ⟨name, value⟩ := e
  have pick : ∀ (f : ConfigField) (r : Except ErrKind Operand),
      r.map (fun v => encode (entryInstr f v)) = .ok w → ∃ f v, w = encode (entryInstr f v) := by
    rintro f (k | v) h
    · cases h
    · exact ⟨f, v, (Except.ok.inj h).symm⟩
  cases name with
  | unknown => exact .inr ⟨_, (Except.ok.inj h).symm⟩
  | known f =>
    left
    cases f with
    | frequency => exact pick .frequency (numericOperand .frequency value) h
    | rate => exact pick .rate (numericOperand .rate value) h
    | len => exact pick .len (numericOperand .len value) h
    | repeats => exact pick .repeats (numericOperand .repeats value) h
    | skip => exact pick .skip (numericOperand .skip value) h
    | type => exact pick .type (typeOperand value) h

/-- The result of an invocation whose entries the front end accepts: what the end of its run shows (R91). -/
theorem invoke_of_words {es : List SourceEntry} {ws : List CommandWord} {s t u : State} {l : List (BitVec 32)}
    (hw : es.mapM frontEnd = .ok ws) (ht : issueAll (encode .clear :: ws ++ [encode .gen]) s = .next t)
    (hc : collectSamples t.drawCommands t = some (l, u)) : invoke es s = resultOf l u := by
  have hi : invocation es = .ok (encode .clear :: ws ++ [encode .gen]) := by
    unfold invocation; rw [hw]; rfl
  unfold invoke
  rw [hi]
  dsimp only
  rw [ht]
  dsimp only
  rw [hc]

end Sys2Proof.Laws
end

