-- ==== Sys2Proof/Laws/SineSeries.lean ====
section
/-!
SUPPORT. What the two series loops of Machine/Sine.lean compute over the real numbers: the bounds of
spec/42_sine_quantizer.md R147 and R148, from the alternating series of arctan and sine and Machin's formula.
-/

namespace Sys2Proof.Laws

open Sys2Proof.Machine Finset Filter Topology

/-- The partial sum of the alternating series with terms `f`. -/
def altSum (f : ℕ → ℚ) (n : ℕ) : ℚ := ∑ i ∈ range n, (-1) ^ i * f i

theorem altSum_succ (f : ℕ → ℚ) (n : ℕ) :
    altSum f (n + 1) = if n % 2 = 0 then altSum f n + f n else altSum f n - f n := by
  unfold altSum
  rw [sum_range_succ]
  rcases Nat.mod_two_eq_zero_or_one n with h | h
  · rw [if_pos h, (Nat.even_iff.mpr h).neg_one_pow, one_mul]
  · rw [if_neg (by omega), (Nat.odd_iff.mpr h).neg_one_pow]; ring

/-- The truncation error of an alternating series is at most the first omitted term. -/
theorem alternating_error {f : ℕ → ℝ} {l : ℝ} (hf : Antitone f)
    (hl : Tendsto (fun n => ∑ i ∈ range n, (-1) ^ i * f i) atTop (𝓝 l)) (n : ℕ) :
    |l - ∑ i ∈ range n, (-1) ^ i * f i| ≤ f n := by
  obtain ⟨k, rfl | rfl⟩ := Nat.even_or_odd' n
  · have lower := hf.alternating_series_le_tendsto hl k
    have upper := hf.tendsto_le_alternating_series hl k
    rw [sum_range_succ, (even_two_mul k).neg_one_pow, one_mul] at upper
    rw [abs_le]; constructor <;> linarith
  · have upper := hf.tendsto_le_alternating_series hl k
    have lower := hf.alternating_series_le_tendsto hl (k + 1)
    rw [show 2 * (k + 1) = 2 * k + 1 + 1 by ring, sum_range_succ,
      (odd_two_mul_add_one k).neg_one_pow, neg_one_mul] at lower
    rw [abs_le]; constructor <;> linarith

/-! ### The series of atan(1/x) -/

theorem atanTerm_pos (x j : ℕ) (hx : 2 ≤ x) : 0 < atanTerm x j := by
  unfold atanTerm; positivity

theorem atanTerm_le (x j : ℕ) (hx : 2 ≤ x) : atanTerm x j ≤ 1 / 2 ^ (2 * j + 1) := by
  unfold atanTerm
  have hpow : (2 : ℚ) ^ (2 * j + 1) ≤ (x : ℚ) ^ (2 * j + 1) := by
    gcongr; exact_mod_cast hx
  have hone : (1 : ℚ) ≤ ((2 * j + 1 : ℕ) : ℚ) := by exact_mod_cast Nat.le_add_left 1 (2 * j)
  gcongr
  calc (2 : ℚ) ^ (2 * j + 1) ≤ 1 * (x : ℚ) ^ (2 * j + 1) := by rw [one_mul]; exact hpow
    _ ≤ _ := by gcongr

theorem atanTerm_antitone (x : ℕ) (hx : 2 ≤ x) : Antitone (fun j => ((atanTerm x j : ℚ) : ℝ)) := by
  refine antitone_nat_of_succ_le fun j => ?_
  have hx1 : (1 : ℚ) ≤ (x : ℚ) := by exact_mod_cast (by omega : 1 ≤ x)
  have : atanTerm x (j + 1) ≤ atanTerm x j := by
    unfold atanTerm
    gcongr <;> omega
  exact_mod_cast this

theorem atan_tendsto (x : ℕ) (hx : 2 ≤ x) :
    Tendsto (fun n => ∑ i ∈ range n, (-1 : ℝ) ^ i * ((atanTerm x i : ℚ) : ℝ)) atTop
      (𝓝 (Real.arctan (x : ℝ)⁻¹)) := by
  have hx2 : (2 : ℝ) ≤ x := by exact_mod_cast hx
  have hlt : ‖(x : ℝ)⁻¹‖ < 1 := by
    rw [norm_inv, Real.norm_of_nonneg (by positivity)]
    exact inv_lt_one_of_one_lt₀ (by linarith)
  refine ((Real.hasSum_arctan hlt).tendsto_sum_nat).congr fun n => sum_congr rfl fun i _ => ?_
  unfold atanTerm
  push_cast
  rw [inv_pow]
  field_simp

theorem atan_error (x : ℕ) (hx : 2 ≤ x) (n : ℕ) :
    |Real.arctan (x : ℝ)⁻¹ - ((altSum (atanTerm x) n : ℚ) : ℝ)| ≤ ((atanTerm x n : ℚ) : ℝ) := by
  have := alternating_error (atanTerm_antitone x hx) (atan_tendsto x hx) n
  unfold altSum
  push_cast
  exact this

/-- The loop of AtanInv stops at some term `m` with the partial sum up to it; the term is small, or the fuel is used up. -/
theorem atanLoop_spec (x n fuel : ℕ) : ∀ j, ∃ m,
    atanLoop x n fuel j (altSum (atanTerm x) j) = (altSum (atanTerm x) m, atanTerm x m) ∧
    (atanTerm x m < 1 / 2 ^ n ∨ m = j + fuel) := by
  induction fuel with
  | zero => exact fun j => ⟨j, rfl, .inr rfl⟩
  | succ fuel ih =>
    intro j
    unfold atanLoop
    by_cases h : atanTerm x j < 1 / 2 ^ n
    · exact ⟨j, by rw [if_pos h], .inl h⟩
    · obtain ⟨m, hm, hstop⟩ := ih (j + 1)
      refine ⟨m, ?_, hstop.imp_right (by omega)⟩
      rw [if_neg h, ← altSum_succ, hm]

/-- `AtanInv` (R147): `(s, e)` with `|atan(1/x) - s| ≤ e`, and the error below `2^-n`. -/
theorem atanInv_spec (x n : ℕ) (hx : 2 ≤ x) :
    |Real.arctan (x : ℝ)⁻¹ - (((atanInv x n).1 : ℚ) : ℝ)| ≤ (((atanInv x n).2 : ℚ) : ℝ) ∧
    (atanInv x n).2 < 1 / 2 ^ n ∧ 0 < (atanInv x n).2 := by
  obtain ⟨m, hm, hstop⟩ := atanLoop_spec x n (n + 1) 0
  have hstart : altSum (atanTerm x) 0 = 0 := rfl
  have heq : atanInv x n = (altSum (atanTerm x) m, atanTerm x m) := by
    rw [← hm, hstart]; rfl
  rw [heq]
  refine ⟨atan_error x hx m, ?_, atanTerm_pos x m hx⟩
  rcases hstop with h | h
  · exact h
  · calc atanTerm x m ≤ 1 / 2 ^ (2 * m + 1) := atanTerm_le x m hx
      _ < 1 / 2 ^ n := by
        apply one_div_lt_one_div_of_lt (by positivity)
        exact pow_lt_pow_right₀ (by norm_num) (by omega)

/-- `PiApprox` (R147): `(p, e)` with `|π - p| ≤ e ≤ 2^-n`. -/
theorem piApprox_spec (n : ℕ) :
    |Real.pi - (((piApprox n).1 : ℚ) : ℝ)| ≤ (((piApprox n).2 : ℚ) : ℝ) ∧
    (piApprox n).2 ≤ 1 / 2 ^ n ∧ 0 < (piApprox n).2 := by
  obtain ⟨ha, ha', ha0⟩ := atanInv_spec 5 (n + 6) (by norm_num)
  obtain ⟨hb, hb', hb0⟩ := atanInv_spec 239 (n + 6) (by norm_num)
  have machin := Real.four_mul_arctan_inv_5_sub_arctan_inv_239
  unfold piApprox
  refine ⟨?_, ?_, by positivity⟩
  · push_cast at ha hb ⊢
    rw [abs_le] at ha hb ⊢
    constructor <;> linarith [ha.1, ha.2, hb.1, hb.2]
  · have hsplit : (1 : ℚ) / 2 ^ n = 64 * (1 / 2 ^ (n + 6)) := by rw [pow_add]; field_simp; norm_num
    rw [hsplit]
    have : (0 : ℚ) < 1 / 2 ^ (n + 6) := by positivity
    linarith

/-! ### The Taylor series of the sine -/

/-- Term `j` of the Taylor series of sine at `x`, without its sign. -/
def sinTerm (x : ℚ) (j : ℕ) : ℚ := x ^ (2 * j + 1) / ((2 * j + 1).factorial : ℚ)

theorem sinTerm_zero (x : ℚ) : sinTerm x 0 = x := by simp [sinTerm]

theorem sinTerm_succ (x : ℚ) (j : ℕ) :
    sinTerm x (j + 1) = sinTerm x j * x * x / ((2 * (j + 1)) * (2 * (j + 1) + 1) : ℕ) := by
  unfold sinTerm
  rw [show 2 * (j + 1) + 1 = (2 * j + 1) + 1 + 1 by ring, Nat.factorial_succ, Nat.factorial_succ]
  push_cast
  field_simp
  ring

theorem sinTerm_nonneg (x : ℚ) (hx : 0 ≤ x) (j : ℕ) : 0 ≤ sinTerm x j := by
  unfold sinTerm; positivity

theorem sinTerm_succ_le (x : ℚ) (hx : 0 ≤ x) (hx3 : x * x ≤ 3) (j : ℕ) :
    sinTerm x (j + 1) ≤ sinTerm x j / 2 := by
  rw [sinTerm_succ]
  have h0 := sinTerm_nonneg x hx j
  have hden : (6 : ℚ) ≤ ((2 * (j + 1)) * (2 * (j + 1) + 1) : ℕ) := by
    exact_mod_cast (by nlinarith : 6 ≤ (2 * (j + 1)) * (2 * (j + 1) + 1))
  rw [div_le_div_iff₀ (by linarith) (by norm_num), mul_assoc (sinTerm x j) x x]
  nlinarith [mul_le_mul_of_nonneg_left hx3 h0]

theorem sinTerm_antitone (x : ℚ) (hx : 0 ≤ x) (hx3 : x * x ≤ 3) :
    Antitone (fun j => ((sinTerm x j : ℚ) : ℝ)) := by
  refine antitone_nat_of_succ_le fun j => ?_
  have h1 := sinTerm_succ_le x hx hx3 j
  have h2 := sinTerm_nonneg x hx j
  exact_mod_cast (by linarith : sinTerm x (j + 1) ≤ sinTerm x j)

theorem sinTerm_le (x : ℚ) (hx : 0 ≤ x) (hx3 : x * x ≤ 3) (j : ℕ) : sinTerm x j ≤ 2 / 2 ^ j := by
  induction j with
  | zero => rw [sinTerm_zero]; nlinarith
  | succ j ih =>
    calc sinTerm x (j + 1) ≤ sinTerm x j / 2 := sinTerm_succ_le x hx hx3 j
      _ ≤ 2 / 2 ^ j / 2 := by linarith
      _ = 2 / 2 ^ (j + 1) := by rw [pow_succ]; field_simp

theorem sin_error (x : ℚ) (hx : 0 ≤ x) (hx3 : x * x ≤ 3) (n : ℕ) :
    |Real.sin (x : ℝ) - ((altSum (sinTerm x) n : ℚ) : ℝ)| ≤ ((sinTerm x n : ℚ) : ℝ) := by
  have hl : Tendsto (fun n => ∑ i ∈ range n, (-1 : ℝ) ^ i * ((sinTerm x i : ℚ) : ℝ)) atTop
      (𝓝 (Real.sin (x : ℝ))) := by
    refine ((Real.hasSum_sin (x : ℝ)).tendsto_sum_nat).congr fun n => sum_congr rfl fun i _ => ?_
    unfold sinTerm
    push_cast
    rw [mul_div_assoc]
  have := alternating_error (sinTerm_antitone x hx hx3) hl n
  unfold altSum
  push_cast
  exact this

/-- The Taylor loop stops at some term `m` with the partial sum up to it; the term is small, or the fuel is used up. -/
theorem taylorLoop_spec (x : ℚ) (n fuel : ℕ) : ∀ j, ∃ m,
    taylorLoop x n fuel j (altSum (sinTerm x) j) (sinTerm x j) = (altSum (sinTerm x) m, sinTerm x m) ∧
    (sinTerm x m < 1 / 2 ^ n ∨ m = j + fuel) := by
  induction fuel with
  | zero => exact fun j => ⟨j, rfl, .inr rfl⟩
  | succ fuel ih =>
    intro j
    unfold taylorLoop
    by_cases h : 1 / 2 ^ n ≤ sinTerm x j
    · obtain ⟨m, hm, hstop⟩ := ih (j + 1)
      refine ⟨m, ?_, hstop.imp_right (by omega)⟩
      rw [if_pos h, ← altSum_succ, ← sinTerm_succ, hm]
    · exact ⟨j, by rw [if_neg h], .inl (not_le.mp h)⟩

/-- The Taylor loop of R148: `(s, e)` with `|sin(x) - s| ≤ e`, and the error at most `2^-n`. -/
theorem taylor_spec (x : ℚ) (hx : 0 ≤ x) (hx3 : x * x ≤ 3) (n : ℕ) :
    |Real.sin (x : ℝ) - (((taylorLoop x n (n + 2) 0 0 x).1 : ℚ) : ℝ)|
      ≤ (((taylorLoop x n (n + 2) 0 0 x).2 : ℚ) : ℝ) ∧
    (taylorLoop x n (n + 2) 0 0 x).2 ≤ 1 / 2 ^ n := by
  obtain ⟨m, hm, hstop⟩ := taylorLoop_spec x n (n + 2) 0
  have heq : taylorLoop x n (n + 2) 0 0 x = (altSum (sinTerm x) m, sinTerm x m) := by
    rw [← hm, sinTerm_zero]; rfl
  rw [heq]
  refine ⟨sin_error x hx hx3 m, ?_⟩
  rcases hstop with h | h
  · exact h.le
  · calc sinTerm x m ≤ 2 / 2 ^ m := sinTerm_le x hx hx3 m
      _ = 2 / 2 ^ (n + 2) := by rw [h, Nat.zero_add]
      _ ≤ 1 / 2 ^ n := by
        rw [pow_add, div_le_div_iff₀ (by positivity) (by positivity)]
        nlinarith [pow_pos (two_pos : (0 : ℚ) < 2) n]

end Sys2Proof.Laws
end

