-- ==== Sys2Proof/Laws/SineReal.lean ====
section
/-!
SUPPORT. The refinement loop of spec/42_sine_quantizer.md R148 computes the floor of the real product, for every period and
every width: the interval of each pass holds the product, the product is no integer (R145, by Niven's theorem),
and its distance to the nearest integer has a lower bound that the precision passes before the rounds are used up.
-/

namespace Sys2Proof.Laws

open Sys2Proof.Machine Finset

/-- The angle `π*k/(2P)` of R148. -/
noncomputable def angle (k P : ℕ) : ℝ := Real.pi * k / (2 * P)

/-- One pass of R148: the two floors are those of the ends of an interval around `A * sin(angle)` whose half width is at
most `2A * 2^-n`. -/
theorem sinBounds_spec (A k P n : ℕ) (hkP : k < P) (hn : 2 ≤ n) : ∃ s e : ℝ,
    |Real.sin (angle k P) - s| ≤ e ∧ e ≤ 2 / 2 ^ n ∧
    (sinBounds A k P n).1 = ⌊(A : ℝ) * (s - e)⌋ ∧ (sinBounds A k P n).2 = ⌊(A : ℝ) * (s + e)⌋ := by
  obtain ⟨hpi, hep, hep0⟩ := piApprox_spec n
  set p := (piApprox n).1 with hp
  set ep := (piApprox n).2 with hepd
  have hP : (0 : ℚ) < P := by exact_mod_cast (by omega : 0 < P)
  have hk0 : (0 : ℚ) ≤ k := by positivity
  have hkP' : (k : ℚ) ≤ P := by exact_mod_cast hkP.le
  have hquarter : (1 : ℚ) / 2 ^ n ≤ 1 / 4 := by
    rw [show (4 : ℚ) = 2 ^ 2 by norm_num]
    exact one_div_le_one_div_of_le (by positivity) (pow_le_pow_right₀ (by norm_num) hn)
  have hpR := abs_le.mp hpi
  have hepR : ((ep : ℚ) : ℝ) ≤ 1 / 4 := by
    have h := (Rat.cast_le (K := ℝ)).mpr (hep.trans hquarter)
    push_cast at h
    exact h
  have hpu : p ≤ 3.4 := by
    have : ((p : ℚ) : ℝ) ≤ ((3.4 : ℚ) : ℝ) := by push_cast; linarith [Real.pi_lt_d2, hpR.1]
    exact_mod_cast this
  have hpl : 0 ≤ p := by
    have : ((0 : ℚ) : ℝ) ≤ ((p : ℚ) : ℝ) := by push_cast; linarith [Real.pi_gt_three, hpR.2]
    exact_mod_cast this
  -- the ratio k/(2P) is at most one half
  set r : ℚ := k / (2 * P) with hr
  have hr0 : 0 ≤ r := by positivity
  have hr1 : r ≤ 1 / 2 := by rw [hr, div_le_div_iff₀ (by positivity) (by norm_num)]; linarith
  have hx : p * k / (2 * P) = p * r := by rw [hr]; ring
  have he : ep * k / (2 * P) = ep * r := by rw [hr]; ring
  have hx0 : 0 ≤ p * r := by positivity
  have hx17 : p * r ≤ 1.7 := by nlinarith
  obtain ⟨htay, htaye⟩ := taylor_spec (p * r) hx0 (by nlinarith) n
  set t := taylorLoop (p * r) n (n + 2) 0 0 (p * r) with ht
  have hangle : |angle k P - ((p * r : ℚ) : ℝ)| ≤ ((ep * r : ℚ) : ℝ) := by
    have : angle k P - ((p * r : ℚ) : ℝ) = (Real.pi - ((p : ℚ) : ℝ)) * ((r : ℚ) : ℝ) := by
      unfold angle; rw [hr]; push_cast; ring
    rw [this, abs_mul, abs_of_nonneg (by exact_mod_cast hr0 : (0 : ℝ) ≤ ((r : ℚ) : ℝ))]
    push_cast
    exact mul_le_mul_of_nonneg_right hpi (by exact_mod_cast hr0)
  have hlip := Real.abs_sin_sub_sin_le (angle k P) ((p * r : ℚ) : ℝ)
  have hfloor : ∀ q : ℚ, q.floor = ⌊((q : ℚ) : ℝ)⌋ := fun q => (Rat.floor_cast q).symm
  refine ⟨((t.1 : ℚ) : ℝ), ((ep * r + t.2 : ℚ) : ℝ), ?_, ?_, ?_, ?_⟩
  · have htri := abs_add_le (Real.sin (angle k P) - Real.sin ((p * r : ℚ) : ℝ))
      (Real.sin ((p * r : ℚ) : ℝ) - ((t.1 : ℚ) : ℝ))
    rw [sub_add_sub_cancel] at htri
    rw [Rat.cast_add]
    linarith
  · have hb : ep * r + t.2 ≤ 2 / 2 ^ n := by
      have h1 : ep * r ≤ 1 / 2 ^ n * 1 := mul_le_mul hep (by linarith) hr0 (by positivity)
      rw [show (2 : ℚ) / 2 ^ n = 1 / 2 ^ n + 1 / 2 ^ n by ring]
      linarith
    have h := (Rat.cast_le (K := ℝ)).mpr hb
    push_cast at h ⊢
    exact h
  · unfold sinBounds
    simp only [← hp, ← hepd, hx, he, ← ht, hfloor]
    push_cast
    rfl
  · unfold sinBounds
    simp only [← hp, ← hepd, hx, he, ← ht, hfloor]
    push_cast
    rfl

/-- The two floors of a pass enclose the floor of the product. -/
theorem sinBounds_enclose (A k P n : ℕ) (hkP : k < P) (hn : 2 ≤ n) :
    (sinBounds A k P n).1 ≤ ⌊(A : ℝ) * Real.sin (angle k P)⌋ ∧
    ⌊(A : ℝ) * Real.sin (angle k P)⌋ ≤ (sinBounds A k P n).2 := by
  obtain ⟨s, e, hse, -, hlo, hhi⟩ := sinBounds_spec A k P n hkP hn
  have h := abs_le.mp hse
  rw [hlo, hhi]
  constructor
  · apply Int.floor_le_floor; gcongr; linarith
  · apply Int.floor_le_floor; gcongr; linarith

/-! ### The product is no integer (R145) -/

theorem angle_pos {k P : ℕ} (hk : 0 < k) (hkP : k < P) : 0 < angle k P := by
  unfold angle
  have : (0 : ℝ) < k := by exact_mod_cast hk
  have : (0 : ℝ) < P := by exact_mod_cast (by omega : 0 < P)
  positivity

theorem angle_lt {k P : ℕ} (hkP : k < P) : angle k P < Real.pi / 2 := by
  unfold angle
  have hP : (0 : ℝ) < P := by exact_mod_cast (by omega : 0 < P)
  have hlt : (k : ℝ) < P := by exact_mod_cast hkP
  rw [div_lt_div_iff₀ (by positivity) (by norm_num)]
  nlinarith [Real.pi_pos]

/-- R145: inside the quadrant an odd multiple of the sine of a rational angle is no integer. -/
theorem mul_sin_angle_ne_int {A k P : ℕ} (hA : A % 2 = 1) (hk : 0 < k) (hkP : k < P) (m : ℤ) :
    (A : ℝ) * Real.sin (angle k P) ≠ m := by
  intro h
  have hpos := angle_pos hk hkP
  have hlt := angle_lt hkP
  have hA0 : (A : ℝ) ≠ 0 := by
    have : A ≠ 0 := by omega
    exact_mod_cast this
  have hsin0 : 0 < Real.sin (angle k P) := Real.sin_pos_of_pos_of_lt_pi hpos (by linarith [Real.pi_pos])
  have hsin1 : Real.sin (angle k P) < 1 := by
    rw [← Real.sin_pi_div_two]
    exact Real.sin_lt_sin_of_lt_of_le_pi_div_two (by linarith) le_rfl hlt
  have hniven := niven_sin (θ := angle k P) ⟨k / (2 * P), by unfold angle; push_cast; ring⟩
    ⟨m / A, by push_cast; rw [← h]; field_simp⟩
  simp only [Set.mem_insert_iff, Set.mem_singleton_iff] at hniven
  rcases hniven with h1 | h1 | h1 | h1 | h1
  · linarith
  · linarith
  · linarith
  · rw [h1] at h
    have h2 : (A : ℝ) = 2 * m := by linarith
    have h3 : (A : ℤ) = 2 * m := by exact_mod_cast h2
    omega
  · linarith

/-! ### How close the product can come to an integer -/

/-- A non-zero value of an integer polynomial of small size at a root of unity is not too small: `1 ≤ |α| * B^N` for
`α = A(ζ^a - ζ^b) - c` with `ζ^N = 1`, because the norm of `α` is a non-zero integer and every conjugate is at most `B`. -/
theorem one_le_norm_mul_pow (N A a b : ℕ) (c : ℤ) (ζ : ℂ) (hN : 0 < N) (hζ : ζ ^ N = 1)
    (B : ℝ) (hB : 1 ≤ B) (hsize : 2 * (A : ℝ) + |(c : ℝ)| ≤ B)
    (hne : (A : ℂ) * (ζ ^ a - ζ ^ b) - c ≠ 0) :
    1 ≤ ‖(A : ℂ) * (ζ ^ a - ζ ^ b) - c‖ * B ^ N := by
  classical
  have hintZ : IsIntegral ℤ ζ := ⟨Polynomial.X ^ N - 1, Polynomial.monic_X_pow_sub_C 1 hN.ne', by simp [hζ]⟩
  have hintQ : IsIntegral ℚ ζ := hintZ.tower_top
  let K := IntermediateField.adjoin ℚ ({ζ} : Set ℂ)
  have : FiniteDimensional ℚ K := IntermediateField.adjoin.finiteDimensional hintQ
  let g : K := IntermediateField.AdjoinSimple.gen ℚ ζ
  have hg : ((g : K) : ℂ) = ζ := IntermediateField.AdjoinSimple.coe_gen ℚ ζ
  have hgN : g ^ N = 1 := by apply Subtype.ext; push_cast; rw [hg, hζ]
  let x : K := (A : K) * (g ^ a - g ^ b) - (c : K)
  have hxc : ((x : K) : ℂ) = (A : ℂ) * (ζ ^ a - ζ ^ b) - c := by simp only [x]; push_cast; rw [hg]
  have hx0 : x ≠ 0 := by
    intro h
    apply hne
    rw [← hxc, h]; rfl
  -- the norm of x is a non-zero integer
  have hgint : IsIntegral ℤ g := ⟨Polynomial.X ^ N - 1, Polynomial.monic_X_pow_sub_C 1 hN.ne', by simp [hgN]⟩
  have hxint : IsIntegral ℤ x := by
    apply IsIntegral.sub
    · apply IsIntegral.mul
      · exact_mod_cast (isIntegral_algebraMap (R := ℤ) (A := K) (x := (A : ℤ)))
      · exact (hgint.pow a).sub (hgint.pow b)
    · exact_mod_cast (isIntegral_algebraMap (R := ℤ) (A := K) (x := c))
  obtain ⟨z, hz⟩ := IsIntegrallyClosed.isIntegral_iff.mp (Algebra.isIntegral_norm ℚ hxint)
  have hz' : ((z : ℤ) : ℚ) = Algebra.norm ℚ x := hz
  have hz0 : z ≠ 0 := by
    rintro rfl
    apply hx0
    apply (Algebra.norm_eq_zero_iff (R := ℚ) (S := K)).mp
    rw [← hz']; norm_num
  have hz1 : (1 : ℝ) ≤ ‖((z : ℤ) : ℂ)‖ := by
    rw [Complex.norm_intCast]
    exact_mod_cast Int.one_le_abs hz0
  have hprod : ((z : ℤ) : ℂ) = ∏ σ : K →ₐ[ℚ] ℂ, σ x := by
    rw [← Algebra.norm_eq_prod_embeddings ℚ ℂ x, ← hz']
    simp
  -- every conjugate is at most B
  have hconj : ∀ σ : K →ₐ[ℚ] ℂ, ‖σ x‖ ≤ B := by
    intro σ
    have hσN : (σ g) ^ N = 1 := by rw [← map_pow, hgN, map_one]
    have hσ1 : ‖σ g‖ = 1 := Complex.norm_eq_one_of_pow_eq_one hσN hN.ne'
    have hσx : σ x = (A : ℂ) * ((σ g) ^ a - (σ g) ^ b) - c := by simp [x]
    rw [hσx]
    have h1 : ‖(σ g) ^ a - (σ g) ^ b‖ ≤ 2 := by
      refine (norm_sub_le _ _).trans ?_
      rw [norm_pow, norm_pow, hσ1, one_pow, one_pow]; norm_num
    calc ‖(A : ℂ) * ((σ g) ^ a - (σ g) ^ b) - c‖ ≤ ‖(A : ℂ) * ((σ g) ^ a - (σ g) ^ b)‖ + ‖(c : ℂ)‖ := norm_sub_le _ _
      _ ≤ (A : ℝ) * 2 + |(c : ℝ)| := by
        rw [norm_mul, Complex.norm_natCast, Complex.norm_intCast]
        gcongr
      _ ≤ B := by linarith
  -- there are at most N of them
  have hcard : Fintype.card (K →ₐ[ℚ] ℂ) ≤ N := by
    rw [AlgHom.card, IntermediateField.adjoin.finrank hintQ]
    have hdvd : minpoly ℚ ζ ∣ Polynomial.X ^ N - 1 := minpoly.dvd ℚ ζ (by simp [hζ])
    have hpoly : (Polynomial.X ^ N - 1 : Polynomial ℚ) ≠ 0 := (Polynomial.monic_X_pow_sub_C 1 hN.ne').ne_zero
    refine (Polynomial.natDegree_le_of_dvd hdvd hpoly).trans (le_of_eq ?_)
    exact Polynomial.natDegree_X_pow_sub_C (r := (1 : ℚ))
  let σ₀ : K →ₐ[ℚ] ℂ := K.val
  have hσ₀ : σ₀ x = (A : ℂ) * (ζ ^ a - ζ ^ b) - c := hxc
  calc (1 : ℝ) ≤ ‖((z : ℤ) : ℂ)‖ := hz1
    _ = ∏ σ : K →ₐ[ℚ] ℂ, ‖σ x‖ := by rw [hprod, norm_prod]
    _ = ‖σ₀ x‖ * ∏ σ ∈ univ.erase σ₀, ‖σ x‖ := (mul_prod_erase univ _ (mem_univ σ₀)).symm
    _ ≤ ‖σ₀ x‖ * ∏ _σ ∈ univ.erase σ₀, B := by
      gcongr with σ _
      exact hconj σ
    _ ≤ ‖σ₀ x‖ * B ^ N := by
      rw [prod_const]
      gcongr
      exact (card_le_univ _).trans hcard
    _ = _ := by rw [hσ₀]

/-- `2 sin(π*k/(2P))` as a difference of powers of a root of unity of order dividing `4P`. -/
theorem two_mul_sin_angle (k P : ℕ) (hP : 0 < P) (hk : k < P) :
    ∃ ζ : ℂ, ζ ^ (4 * P) = 1 ∧
      ((2 * Real.sin (angle k P) : ℝ) : ℂ) = ζ ^ (3 * P + k) - ζ ^ (3 * P + (4 * P - k)) := by
  have hPc : (P : ℂ) ≠ 0 := by exact_mod_cast hP.ne'
  refine ⟨Complex.exp (2 * Real.pi * Complex.I / (4 * P : ℕ)), ?_, ?_⟩
  · rw [← Complex.exp_nat_mul, ← Complex.exp_two_pi_mul_I]
    congr 1
    push_cast
    field_simp
  · have h3 : Complex.exp (3 * Real.pi / 2 * Complex.I) = -Complex.I := by
      rw [Complex.exp_mul_I]
      have hc : Complex.cos (3 * Real.pi / 2) = 0 := by
        rw [show (3 * Real.pi / 2 : ℂ) = Real.pi / 2 + Real.pi by ring, Complex.cos_add_pi]
        simp
      have hs : Complex.sin (3 * Real.pi / 2) = -1 := by
        rw [show (3 * Real.pi / 2 : ℂ) = Real.pi / 2 + Real.pi by ring, Complex.sin_add_pi]
        simp
      rw [hc, hs]; ring
    have e1 : Complex.exp (2 * Real.pi * Complex.I / (4 * P : ℕ)) ^ (3 * P + k)
        = -Complex.I * Complex.exp ((angle k P : ℝ) * Complex.I) := by
      rw [← Complex.exp_nat_mul, ← h3, ← Complex.exp_add]
      congr 1
      unfold angle
      push_cast
      field_simp
      ring
    have e2 : Complex.exp (2 * Real.pi * Complex.I / (4 * P : ℕ)) ^ (3 * P + (4 * P - k))
        = -Complex.I * Complex.exp (-(angle k P : ℝ) * Complex.I) := by
      rw [← Complex.exp_nat_mul, ← h3, ← Complex.exp_add, Complex.exp_eq_exp_iff_exists_int]
      refine ⟨1, ?_⟩
      unfold angle
      push_cast [Nat.cast_sub (by omega : k ≤ 4 * P)]
      field_simp
      ring
    rw [e1, e2]
    push_cast
    rw [Complex.sin]
    ring

/-- The distance of `A * sin(angle)` to an integer, when it is not 0. -/
theorem mul_sin_angle_far {A k P : ℕ} (hkP : k < P) (m : ℤ) (hm : |(m : ℝ)| ≤ A + 1)
    (hne : (A : ℝ) * Real.sin (angle k P) ≠ m) :
    1 ≤ 2 * |(A : ℝ) * Real.sin (angle k P) - m| * (4 * (A : ℝ) + 2) ^ (4 * P) := by
  obtain ⟨ζ, hζ, hsin⟩ := two_mul_sin_angle k P (by omega) hkP
  have hval : (A : ℂ) * (ζ ^ (3 * P + k) - ζ ^ (3 * P + (4 * P - k))) - ((2 * m : ℤ) : ℂ)
      = ((2 * ((A : ℝ) * Real.sin (angle k P) - m) : ℝ) : ℂ) := by
    rw [← hsin]; push_cast; ring
  have hsub : (A : ℝ) * Real.sin (angle k P) - m ≠ 0 := sub_ne_zero.mpr hne
  have hA : (0 : ℝ) ≤ A := by positivity
  have hmain := one_le_norm_mul_pow (4 * P) A (3 * P + k) (3 * P + (4 * P - k)) (2 * m) ζ (by omega) hζ
    (4 * (A : ℝ) + 2) (by linarith)
    (by push_cast; rw [abs_mul, abs_of_pos (two_pos : (0 : ℝ) < 2)]; linarith)
    (by rw [hval]; exact_mod_cast mul_ne_zero two_ne_zero hsub)
  rw [hval, Complex.norm_real, Real.norm_eq_abs, abs_mul, abs_of_pos (two_pos : (0 : ℝ) < 2)] at hmain
  exact hmain

/-- At a precision past `35 + 136 P` bits the two floors agree, for every period and every width. -/
theorem sinBounds_agree {A k P n : ℕ} (hA : A % 2 = 1) (hA31 : A < 2 ^ 31) (hk : 0 < k) (hkP : k < P)
    (h64 : 64 ≤ n) (hn : 35 + 136 * P < n) : (sinBounds A k P n).1 = (sinBounds A k P n).2 := by
  obtain ⟨s, e, hse, he, hlo, hhi⟩ := sinBounds_spec A k P n hkP (by omega)
  have habs := abs_le.mp hse
  have hA0 : (0 : ℝ) ≤ A := by positivity
  have he0 : 0 ≤ e := (abs_nonneg _).trans hse
  rw [hlo, hhi]
  by_contra hdiff
  have hlt : ⌊(A : ℝ) * (s - e)⌋ < ⌊(A : ℝ) * (s + e)⌋ :=
    lt_of_le_of_ne (Int.floor_le_floor (by gcongr; linarith)) hdiff
  set m := ⌊(A : ℝ) * (s + e)⌋ with hmdef
  have hmu : (m : ℝ) ≤ A * (s + e) := Int.floor_le _
  have hml : (A : ℝ) * (s - e) < m := by
    have h1 := Int.lt_floor_add_one ((A : ℝ) * (s - e))
    have h2 : ((⌊(A : ℝ) * (s - e)⌋ : ℤ) : ℝ) + 1 ≤ m := by exact_mod_cast hlt
    linarith
  -- the integer m is close to the product
  have hclose : |(A : ℝ) * Real.sin (angle k P) - m| ≤ 4 * A / 2 ^ n := by
    have h1 : 2 * (A * e) ≤ 4 * A / 2 ^ n := by
      have := mul_le_mul_of_nonneg_left he hA0
      calc 2 * (A * e) ≤ 2 * (A * (2 / 2 ^ n)) := by linarith
        _ = 4 * A / 2 ^ n := by ring
    have h2 := mul_le_mul_of_nonneg_left habs.1 hA0
    have h3 := mul_le_mul_of_nonneg_left habs.2 hA0
    rw [abs_le]
    constructor <;> nlinarith
  have hAr : (A : ℝ) ≤ 2 ^ 31 := by exact_mod_cast hA31.le
  have hpow64 : (2 : ℝ) ^ 64 ≤ 2 ^ n := pow_le_pow_right₀ (by norm_num) h64
  have hsmall : 4 * (A : ℝ) / 2 ^ n ≤ 1 := by
    rw [div_le_one (by positivity)]
    calc 4 * (A : ℝ) ≤ 4 * 2 ^ 31 := by linarith
      _ ≤ 2 ^ 64 := by norm_num
      _ ≤ 2 ^ n := hpow64
  have hmabs : |(m : ℝ)| ≤ A + 1 := by
    have h1 := Real.abs_sin_le_one (angle k P)
    have h2 : |(A : ℝ) * Real.sin (angle k P)| ≤ A := by
      rw [abs_mul, abs_of_nonneg hA0]; nlinarith
    have h3 := abs_le.mp (hclose.trans hsmall)
    have h4 := abs_le.mp h2
    rw [abs_le]; constructor <;> linarith
  have hfar := mul_sin_angle_far hkP m hmabs (mul_sin_angle_ne_int hA hk hkP m)
  -- the size bound contradicts the precision
  have hbase : 4 * (A : ℝ) + 2 ≤ 2 ^ 34 := by
    calc 4 * (A : ℝ) + 2 ≤ 4 * 2 ^ 31 + 2 := by linarith
      _ ≤ 2 ^ 34 := by norm_num
  have hpow : (4 * (A : ℝ) + 2) ^ (4 * P) ≤ 2 ^ (34 * (4 * P)) := by
    rw [pow_mul (2 : ℝ) 34]; gcongr
  have hcontra : 2 * |(A : ℝ) * Real.sin (angle k P) - m| * (4 * (A : ℝ) + 2) ^ (4 * P)
      ≤ 2 ^ (35 + 34 * (4 * P)) / 2 ^ n := by
    calc 2 * |(A : ℝ) * Real.sin (angle k P) - m| * (4 * (A : ℝ) + 2) ^ (4 * P)
        ≤ 2 * (4 * A / 2 ^ n) * 2 ^ (34 * (4 * P)) := by gcongr
      _ ≤ 2 * (4 * 2 ^ 31 / 2 ^ n) * 2 ^ (34 * (4 * P)) := by gcongr
      _ = 2 ^ 34 * 2 ^ (34 * (4 * P)) / 2 ^ n := by ring
      _ ≤ 2 ^ 35 * 2 ^ (34 * (4 * P)) / 2 ^ n := by
        apply div_le_div_of_nonneg_right _ (by positivity)
        exact mul_le_mul_of_nonneg_right (by norm_num) (by positivity)
      _ = 2 ^ (35 + 34 * (4 * P)) / 2 ^ n := by rw [pow_add (2 : ℝ) 35]
  have hexp : 35 + 34 * (4 * P) < n := by omega
  have hlast : (2 : ℝ) ^ (35 + 34 * (4 * P)) / 2 ^ n < 1 := by
    rw [div_lt_one (by positivity)]
    exact pow_lt_pow_right₀ (by norm_num) hexp
  linarith

/-- The refinement loop answers the floor of the product, if the rounds left reach a precision past `35 + 136 P` bits. -/
theorem sinRefine_eq {A k P : ℕ} (hA : A % 2 = 1) (hA31 : A < 2 ^ 31) (hk : 0 < k) (hkP : k < P)
    (fuel : ℕ) : ∀ n, 64 ≤ n → 35 + 136 * P < n * 2 ^ fuel →
      sinRefine A k P fuel n = ⌊(A : ℝ) * Real.sin (angle k P)⌋ := by
  have done : ∀ n, 64 ≤ n → (sinBounds A k P n).1 = (sinBounds A k P n).2 →
      (sinBounds A k P n).1 = ⌊(A : ℝ) * Real.sin (angle k P)⌋ := fun n hn h =>
    le_antisymm (sinBounds_enclose A k P n hkP (by omega)).1 (h ▸ (sinBounds_enclose A k P n hkP (by omega)).2)
  induction fuel with
  | zero =>
    intro n hn hlarge
    exact done n hn (sinBounds_agree hA hA31 hk hkP hn (by simpa using hlarge))
  | succ fuel ih =>
    intro n hn hlarge
    unfold sinRefine
    split
    · next h => exact done n hn h
    · exact ih (2 * n) (by omega) (by rw [pow_succ 2 fuel] at hlarge; linarith)

/-- The rounds of `sinMagFloor` reach that precision. -/
theorem refineRounds_enough (P : ℕ) : 35 + 136 * P < 64 * 2 ^ refineRounds P := by
  have h := Nat.lt_two_pow_self (n := P)
  unfold refineRounds
  rw [pow_add 2 P]
  omega

theorem maxAmp_odd (w : Width) : maxAmp w % 2 = 1 := by cases w <;> decide

theorem maxAmp_lt (w : Width) : maxAmp w < 2 ^ 31 := by cases w <;> decide

/-- R148: `SinMagFloor` is the floor of the real product, for every width and every period. In particular the rounds of the
loop are never used up without the two floors agreeing. -/
theorem sinMagFloor_eq (w : Width) {k P : ℕ} (hk : 0 < k) (hkP : k < P) :
    sinMagFloor (maxAmp w) k P = ⌊(maxAmp w : ℝ) * Real.sin (angle k P)⌋ :=
  sinRefine_eq (maxAmp_odd w) (maxAmp_lt w) hk hkP (refineRounds P) 64 le_rfl (refineRounds_enough P)

/-! ### The folding of R146 -/

/-- Off the axes of the circle the folded index lies strictly inside the quadrant. -/
theorem foldedIndex_bounds {P i : ℕ} (hP : 0 < P) (hr : 4 * i % P ≠ 0) : 0 < foldedIndex P i ∧ foldedIndex P i < P := by
  have := Nat.mod_lt (4 * i) hP
  unfold foldedIndex
  split <;> omega

/-- The sine at index `i` of `P` is the sine at the folded index, positive in the first half and negative in the second. -/
theorem sin_foldedIndex {P i : ℕ} (hi : i < P) :
    Real.sin (2 * Real.pi * i / P) =
      if 4 * i / P < 2 then Real.sin (angle (foldedIndex P i) P) else -Real.sin (angle (foldedIndex P i) P) := by
  have hP : (P : ℝ) ≠ 0 := by
    have : 0 < P := by omega
    positivity
  have hm := Nat.mod_lt (4 * i) (by omega : P > 0)
  have hd := Nat.div_add_mod (4 * i) P
  have hq : 4 * i / P < 4 := (Nat.div_lt_iff_lt_mul (by omega)).2 (by omega)
  have hx : 2 * Real.pi * i / P = (4 * i / P : ℕ) * (Real.pi / 2) + angle (4 * i % P) P := by
    have : (4 : ℝ) * i = P * (4 * i / P : ℕ) + (4 * i % P : ℕ) := by exact_mod_cast hd.symm
    unfold angle
    field_simp
    linear_combination this
  have hc : angle (P - 4 * i % P) P = Real.pi / 2 - angle (4 * i % P) P := by
    unfold angle
    rw [Nat.cast_sub hm.le]
    field_simp
  rw [hx]
  unfold foldedIndex
  generalize 4 * i / P = q at hq
  interval_cases q
  · simp
  · rw [Nat.cast_one, one_mul, add_comm, Real.sin_add_pi_div_two]
    simp [hc, Real.sin_pi_div_two_sub]
  · rw [show ((2 : ℕ) : ℝ) * (Real.pi / 2) = Real.pi by push_cast; ring, add_comm, Real.sin_add_pi]
    simp
  · rw [show ((3 : ℕ) : ℝ) * (Real.pi / 2) + angle (4 * i % P) P = angle (4 * i % P) P + Real.pi / 2 + Real.pi by
      push_cast; ring, Real.sin_add_pi, Real.sin_add_pi_div_two]
    simp [hc, Real.sin_pi_div_two_sub]

end Sys2Proof.Laws
end

