-- ==== Sys2Proof/Tests/Slice0.lean ====
section
/-!
SUPPORT. The author's own tests. Expected values are those of spec/95_test_vectors.md, named by their ids (VC, VG, VN, VE, P),
or of the rule cited. The second half shows, for each statement with hypotheses, a state and operands that meet them.
-/

namespace Sys2Proof.Tests

open Sys2Proof.Machine Sys2Proof.Safety

/-- The state in which the given words, presented in order from reset, leave the block. -/
def after (ws : List CommandWord) : State :=
  match issueAll ws State.reset with
  | .next t => t
  | .fault _ => State.reset
  | .refused _ => State.reset

/-- Does the word lead from `s` to a next state with this property? -/
def yields (w : CommandWord) (s : State) (p : State → Bool) : Bool :=
  match issue w s with
  | .next t => p t
  | .fault _ => false
  | .refused _ => false

/-! ### Well-formedness -/

theorem test_wf_refuses_command_under_rst : HostInput.wf { rst := true, cmdValid := true, cmd := 0x1000000000 } = false := by
  decide

theorem test_wf_accepts_lone_pins : (HostInput.command 0x1000000000).wf = true ∧ HostInput.reset.wf = true ∧ HostInput.idle.wf = true := by
  decide

/-! ### Decoding: opcode in bits 39:32, operand in bits 31:0, written out bit by bit (R80, R84) -/

/-- VC10 -/
theorem test_decode_frequency : decode 0b0000000100000000000000000000000110111000 = .ok (.frequency 440) := by decide

/-- program P2 -/
theorem test_decode_rate : decode 0b0000001000000000000000001010110001000100 = .ok (.rate 44100) := by decide

/-- program P3 -/
theorem test_decode_len : decode 0b0000001100000000000000000000000000001100 = .ok (.len 12) := by decide

/-- VC5 -/
theorem test_decode_repeats : decode 0b0000010011111111111111111111111111111111 = .ok (.repeats 4294967295) := by decide

/-- VC6 -/
theorem test_decode_skip : decode 0b0000010100000000000000000000000000001011 = .ok (.skip 11) := by decide

/-- VC13 -/
theorem test_decode_type : decode 0b0000011000000000000000000000000100001000 = .ok (.type 264) := by decide

/-- R84 -/
theorem test_decode_gen : decode 0b0001000000000000000000000000000000000000 = .ok .gen := by decide

/-- R84 -/
theorem test_decode_next : decode 0b0001000100000000000000000000000000000000 = .ok .next := by decide

/-- section 2.4: `clear` with any operand, for example 0xDEADBEEF -/
theorem test_decode_clear : decode 0b0001111111011110101011011011111011101111 = .ok .clear := by decide

/-- R85: the neighbours of the assigned opcodes -/
theorem test_decode_reserved : ([0x00, 0x07, 0x0F, 0x12, 0x1E, 0x20, 0xFF] : List Opcode).map (fun op => decodeTableWord 40 (commandWord op 5).toNat)
    = List.replicate 7 none := by decide

theorem test_decode_table_word : decodeTableWord 40 0x0300000005 = some (.len 5) := by decide

/-- The very next step runs the word that withFetchWord places. -/
theorem test_fetch_word : (match step (State.reset.withFetchWord 40 0x1000000000) with
    | .next t => t.mode == .stream && t.period == 100 && t.count == 100
    | .fault _ => false
    | .refused _ => false) = true := by decide

/-! ### One step of each command -/

/-- VC1 -/
theorem test_frequency : yields 0x010000000A State.reset
    (fun t => t.frequency == 10 && t.seen == 0b000001 && t.frLast == 0 && t.response == okResponse) = true := by decide

/-- VC15 -/
theorem test_frequency_duplicate : yields 0x0100000006 (after [0x0100000005])
    (fun t => t.mode == .error && t.errKind == .duplicateField && t.errField == some .frequency && t.errOp == 0x01 &&
      t.errValue == 6 && t.errOther == 5 && t.frequency == 5 && t.seen == 0b000001) = true := by decide

/-- VC2 -/
theorem test_rate : yields 0x0200000064 (after [0x010000000A])
    (fun t => t.rate == 100 && t.seen == 0b000011 && t.frLast == 1) = true := by decide

/-- VC4 -/
theorem test_len_zero : yields 0x0300000000 State.reset
    (fun t => t.mode == .config && t.len == 0 && t.seen == 0b000100) = true := by decide

/-- VE6 -/
theorem test_len_after_repeats : yields 0x0300000005 (after [0x0400000003])
    (fun t => t.errKind == .conflictingLenRepeats && t.errField == some .len && t.errOp == 0x03 && t.errValue == 5 &&
      t.errOther == 3 && t.len == 0 && t.repeats == 3 && t.seen == 0b001000) = true := by decide

/-- VC5 -/
theorem test_repeats : yields 0x04FFFFFFFF State.reset
    (fun t => t.repeats == 4294967295 && t.seen == 0b001000) = true := by decide

/-- VE5 -/
theorem test_repeats_after_len : yields 0x0400000000 (after [0x0300000005])
    (fun t => t.errKind == .conflictingLenRepeats && t.errField == some .repeats && t.errOp == 0x04 && t.errValue == 0 &&
      t.errOther == 5 && t.len == 5 && t.repeats == 1 && t.seen == 0b000100) = true := by decide

/-- VC6 -/
theorem test_skip : yields 0x050000000B State.reset (fun t => t.skip == 11 && t.seen == 0b010000) = true := by decide

/-- Section 2.6, step 3: out of MODE CONFIG an entry is answered `nak`. -/
theorem test_skip_nak : yields 0x0500000001 (after [0x1000000000])
    (fun t => t.response == nakResponse && t.skip == 0 && t.mode == .stream) = true := by decide

/-- VC13 -/
theorem test_type_whole_operand : yields 0x0600000108 State.reset
    (fun t => t.errKind == .invalidLiteral && t.errField == some .type && t.errOp == 0x06 && t.errValue == 264 &&
      t.errOther == 0 && t.width == .w16 && t.seen == 0) = true := by decide

/-- VC14 -/
theorem test_type_duplicate_first : yields 0x0600000063 (after [0x0600000008])
    (fun t => t.errKind == .duplicateField && t.errValue == 99 && t.errOther == 8 && t.width == .w8) = true := by decide

/-- VG6 -/
theorem test_gen_wide_count : yields 0x1000000000 (after [0x0100000001, 0x02FFFFFFFF, 0x04FFFFFFFF])
    (fun t => t.mode == .stream && t.period == 4294967295 && t.count == 18446744065119617025 && t.phase == 0) = true := by
  decide

/-- VE8 -/
theorem test_gen_blames_later : yields 0x1000000000 (after [0x0200000064, 0x0100000064])
    (fun t => t.errKind == .frequencyExceedsRate && t.errField == some .frequency && t.errOp == 0x10 &&
      t.errValue == 100 && t.errOther == 100 && t.period == 0 && t.count == 0 && t.table == none) = true := by decide

/-- The start states of VN8 and VN9. -/
def midStream (phase : Word) (index : Wide) : State :=
  { State.reset with
    mode := .stream, width := .w8, period := 8, count := 12, phase := phase, index := index,
    table := some { width := .w8, period := 8 } }

/-- VN8 -/
theorem test_next_wraps : yields 0x1100000000 (midStream 7 4)
    (fun t => t.response == { nak := false, valid := true, sample := 0xFFFFFFA7 } && t.mode == .stream && t.phase == 0 &&
      t.index == 5) = true := by decide +kernel

/-- VN9 -/
theorem test_next_last : yields 0x1100000000 (midStream 6 11)
    (fun t => t.response == { nak := false, valid := true, sample := 0xFFFFFF81 } && t.mode == .done && t.phase == 7 &&
      t.index == 12) = true := by decide +kernel

/-- Section 2.4: `clear` in MODE STREAM and in MODE ERROR (after VC12). -/
theorem test_clear : yields 0x1F00000000 (midStream 7 4) (fun t => t == State.reset) = true ∧
    yields 0x1FDEADBEEF (after [0x0600000018]) (fun t => t == State.reset) = true := by decide

/-- VE18 -/
theorem test_reserved : yields 0x0700000063 (after [0x0500000001])
    (fun t => t.errKind == .unknownField && t.errField == none && t.errOp == 0x07 && t.errValue == 99 && t.errOther == 47) =
      true := by decide

/-! ### The sine sample (section 2.1) -/

theorem test_sine_period_10 : (List.range 10).map (sineSample .w16 10) =
    [0, 19259, 31163, 31163, 19259, 0, -19259, -31163, -31163, -19259] := by decide +kernel

theorem test_sine_period_12 : (List.range 12).map (sineSample .w8 12) =
    [0, 63, 109, 127, 109, 63, 0, -63, -109, -127, -109, -63] := by decide +kernel

theorem test_sine_large_periods :
    [sineSample .w8 797 1, sineSample .w8 798 1, sineSample .w16 44100 1, sineSample .w16 44100 11024,
      sineSample .w32 4294967295 1, sineSample .w32 4294967295 1073741824, sineSample .w32 4294967295 2147483648] =
    [1, 0, 4, 32766, 3, 2147483646, -1] := by decide +kernel

/-- Program P3, whole, through the invocation of its entries. -/
theorem test_program_P3 :
    invoke [numericEntry .frequency 1, numericEntry .rate 8, typeEntry .w8, numericEntry .skip 11, numericEntry .len 12] State.reset =
      .output .w8 12 ([89, 0, -89, -127, -89, 0, 89, 127, 89, 0, -89, -127].map (BitVec.ofInt 32)) := by decide +kernel

/-! ### Witnesses: states and operands that meet the hypotheses of the statements -/

/-- VG7 before and after `gen`. -/
def configured : State := after [0x0100000001, 0x0200000008, 0x0600000008, 0x050000000B, 0x030000000C]

def armed : State := after [0x0100000001, 0x0200000008, 0x0600000008, 0x050000000B, 0x030000000C, 0x1000000000]

/-- The state of VC12, in MODE ERROR. -/
def failed : State := after [0x0600000018]

theorem witness_DecodingInvertsEncoding : (Instr.type 264).wf = true ∧ Instr.gen.wf = true := by decide

theorem witness_FormatEWordIsTheEncodingOfItsCommand :
    decode 0x04FFFFFFFF = .ok (.repeats 4294967295) ∧ (Instr.repeats 4294967295).usesOperand = true ∧
    decode 0x1FDEADBEEF = .ok .clear ∧ Instr.clear.usesOperand = false := by decide

theorem witness_ReservedOpcodesAreTheUnassignedOnes :
    ([0x00, 0x07, 0x0F, 0x12, 0x1E, 0x20, 0xFF] : List Opcode).map (fun op => isReserved (opcodeOf (commandWord op 0))) =
      List.replicate 7 true ∧
    ([0x01, 0x06, 0x10, 0x11, 0x1F] : List Opcode).map (fun op => isReserved (opcodeOf (commandWord op 0))) =
      List.replicate 5 false := by decide

theorem witness_StepRunsTheDecodedCommand :
    (State.reset.present 0x1000000000).host = HostInput.command 0x1000000000 :: [] ∧
    (HostInput.command 0x1000000000).rst = false ∧ (HostInput.command 0x1000000000).cmdValid = true ∧
    decode (HostInput.command 0x1000000000).cmd = .ok .gen ∧ Instr.gen.wf = true := by decide

theorem witness_FetchedWordRunsNext : decodeTableWord 40 0x0300000005 = some (.len 5) := by decide

theorem witness_StepWithoutACommandHoldsOrResets :
    armed.host = [] ∧
    { armed with host := [HostInput.idle] }.host = HostInput.idle :: [] ∧ HostInput.idle.rst = false ∧ HostInput.idle.cmdValid = false ∧
    { armed with host := [HostInput.reset] }.host = HostInput.reset :: [] ∧ HostInput.reset.rst = true := by decide

/-- In MODE CONFIG and in another mode. -/
theorem witness_ReservedOpcodeRaisesUnknownField :
    (State.reset.present 0xFFFFFFFFFF).mode = .config ∧ (armed.present 0xFFFFFFFFFF).mode = .stream ∧
    (armed.present 0xFFFFFFFFFF).host = HostInput.command 0xFFFFFFFFFF :: [] ∧
    (HostInput.command 0xFFFFFFFFFF).rst = false ∧ (HostInput.command 0xFFFFFFFFFF).cmdValid = true ∧
    isReserved (opcodeOf (HostInput.command 0xFFFFFFFFFF).cmd) = true := by decide

/-- Both clauses, each with a step that completes. -/
theorem witness_ModeGatingFollowsTheTable :
    (failed.present 0x1000000000).host = HostInput.command 0x1000000000 :: [] ∧
    (HostInput.command 0x1000000000).rst = false ∧ (HostInput.command 0x1000000000).cmdValid = true ∧
    executesIn failed.mode (opcodeOf 0x1000000000) = false ∧
    executesIn configured.mode (opcodeOf 0x1000000000) = true ∧
    yields 0x1000000000 configured (fun t => t.response.nak == false) = true := by decide

/-- Every clause: `nak`; `clear`; `next` before and at the last sample; `gen` with and without an error; an entry with and
without an error. -/
theorem witness_ModeMovesOnlyAsListed :
    exec .gen failed = .next failed.respondNak ∧ executesIn failed.mode Instr.gen.opcode = false ∧
    (exec .clear failed = .next State.reset ∧ executesIn failed.mode Instr.clear.opcode = true) ∧
    executesIn (midStream 7 4).mode Instr.next.opcode = true ∧
    yields 0x1100000000 (midStream 7 4) (fun t => t.mode == .stream) = true ∧
    yields 0x1100000000 (midStream 6 11) (fun t => t.mode == .done) = true ∧
    executesIn configured.mode Instr.gen.opcode = true ∧
    yields 0x1000000000 configured (fun t => t.mode == .stream) = true ∧
    yields 0x1000000000 (after [0x0300000000]) (fun t => t.mode == .error) = true ∧
    executesIn State.reset.mode (entryInstr .type 24).opcode = true ∧
    yields 0x0600000018 State.reset (fun t => t.mode == .error) = true ∧
    yields 0x0600000020 State.reset (fun t => t.mode == .config) = true :=
  ⟨rfl, by decide, ⟨rfl, by decide⟩, by decide, by decide +kernel, by decide +kernel, by decide, by decide, by decide, by decide,
    by decide, by decide⟩

/-- For the six entry statements: a state in MODE CONFIG with the field unset. -/
theorem witness_EntryDefinesTheField :
    State.reset.mode = .config ∧
    [ConfigField.frequency, .rate, .len, .repeats, .skip, .type].map State.reset.seenFlag = List.replicate 6 false := by decide

theorem witness_RepeatedFieldRaisesDuplicateField :
    configured.mode = .config ∧
    [ConfigField.frequency, .rate, .len, .skip, .type].map configured.seenFlag = List.replicate 5 true ∧
    (after [0x0400000003]).mode = .config ∧ (after [0x0400000003]).seenFlag .repeats = true := by decide

theorem witness_LenAndRepeatsExcludeEachOther :
    ((after [0x0400000003]).mode = .config ∧ (after [0x0400000003]).seenFlag .len = false ∧
      (after [0x0400000003]).seenFlag .repeats = true) ∧
    ((after [0x0300000005]).mode = .config ∧ (after [0x0300000005]).seenFlag .repeats = false ∧
      (after [0x0300000005]).seenFlag .len = true) := by decide

/-- The values next to the three legal ones. -/
theorem witness_IllegalTypeOperandRaisesInvalidLiteral :
    State.reset.mode = .config ∧ State.reset.seenFlag .type = false ∧
    ([0, 7, 9, 15, 17, 31, 33, 264, 4294967295] : List Operand).all (fun v => v != 8 && v != 16 && v != 32) = true := by decide

theorem witness_EntriesThatRaiseNothingCommute :
    ConfigField.frequency ≠ .rate ∧ State.reset.mode = .config ∧
    exec (entryInstr .frequency 5) State.reset = .next (after [0x0100000005]) ∧ (after [0x0100000005]).mode = .config ∧
    exec (entryInstr .rate 44) (after [0x0100000005]) = .next (after [0x0100000005, 0x020000002C]) ∧
    (after [0x0100000005, 0x020000002C]).mode = .config := ⟨by decide, rfl, rfl, rfl, rfl, rfl⟩

/-- A flag cleared, a flag set, FR_LAST changed. -/
theorem witness_FlagsChangeOnlyByTheirWriters :
    (exec .clear configured = .next State.reset ∧ configured.seenFlag .len = true ∧ State.reset.seenFlag .len = false) ∧
    (exec (.rate 44) State.reset = .next (after [0x020000002C]) ∧ State.reset.seenFlag .rate = false ∧
      (after [0x020000002C]).seenFlag .rate = true ∧ State.reset.frLast ≠ (after [0x020000002C]).frLast) :=
  ⟨⟨rfl, by decide, by decide⟩, rfl, by decide, by decide, by decide⟩

/-- VG7, and VG4 where RATE is exactly 3 * FREQUENCY. -/
theorem witness_GenArmsTheStream :
    (configured.mode = .config ∧ genAccepts configured) ∧
    ((after [0x0100000032, 0x0200000096]).mode = .config ∧ genAccepts (after [0x0100000032, 0x0200000096])) := by
  unfold genAccepts; decide

/-- Accepted (VG4), and one below (VE16). -/
theorem witness_GenSucceedsExactlyWhenAccepted :
    (after [0x0100000032, 0x0200000096]).mode = .config ∧ genAccepts (after [0x0100000032, 0x0200000096]) ∧
    (after [0x0100000032, 0x0200000095]).mode = .config ∧ ¬ genAccepts (after [0x0100000032, 0x0200000095]) := by
  unfold genAccepts; decide

/-- VE4, VE2, VE1, VE3: one for each of the four fields. -/
theorem witness_GenReportsTheFirstZeroField :
    (let s := after [0x0100000000, 0x0200000000, 0x0400000000]; s.mode = .config ∧ s.frequency = 0) ∧
    (let s := after [0x0200000000, 0x0100000005]; s.mode = .config ∧ s.frequency ≠ 0 ∧ s.rate = 0) ∧
    (let s := after [0x0300000000]; s.mode = .config ∧ s.frequency ≠ 0 ∧ s.rate ≠ 0 ∧ s.seenFlag .len = true ∧ s.len = 0) ∧
    (let s := after [0x0100000001, 0x0200000003, 0x0600000008, 0x0400000000];
      s.mode = .config ∧ s.frequency ≠ 0 ∧ s.rate ≠ 0 ∧ (s.seenFlag .len = true → s.len ≠ 0) ∧ s.repeats = 0) := by decide

/-- VE14, the largest rate below twice the frequency. -/
theorem witness_GenRejectsPeriodsBelowTwo :
    let s := after [0x0100000032, 0x0200000063]
    s.mode = .config ∧ s.frequency ≠ 0 ∧ s.rate ≠ 0 ∧ (s.seenFlag .len = true → s.len ≠ 0) ∧ s.repeats ≠ 0 ∧
      s.rate.toNat < 2 * s.frequency.toNat := by decide

/-- VE15 and VE16, the two ends of the range. -/
theorem witness_GenRejectsDegenerateWaves :
    (let s := after [0x0100000032, 0x0200000064];
      s.mode = .config ∧ s.frequency ≠ 0 ∧ (s.seenFlag .len = true → s.len ≠ 0) ∧ s.repeats ≠ 0 ∧
      2 * s.frequency.toNat ≤ s.rate.toNat ∧ s.rate.toNat < 3 * s.frequency.toNat) ∧
    (let s := after [0x0100000032, 0x0200000095];
      s.mode = .config ∧ s.frequency ≠ 0 ∧ (s.seenFlag .len = true → s.len ≠ 0) ∧ s.repeats ≠ 0 ∧
      2 * s.frequency.toNat ≤ s.rate.toNat ∧ s.rate.toNat < 3 * s.frequency.toNat) := by decide

/-- Both orders of the two entries. -/
theorem witness_BlameFallsOnTheLaterSupplied :
    State.reset.mode = .config ∧ State.reset.seenFlag .frequency = false ∧ State.reset.seenFlag .rate = false ∧
    (exec (.frequency 5) State.reset = .next (after [0x0100000005]) ∧
      exec (.rate 6) (after [0x0100000005]) = .next (after [0x0100000005, 0x0200000006])) ∧
    (exec (.rate 6) State.reset = .next (after [0x0200000006]) ∧
      exec (.frequency 5) (after [0x0200000006]) = .next (after [0x0200000006, 0x0100000005])) :=
  ⟨rfl, rfl, rfl, ⟨rfl, rfl⟩, rfl, rfl⟩

/-- VE15 -/
theorem witness_FailingGenCommitsOnlyTheRecord :
    let s := after [0x0100000032, 0x0200000064]
    let t := after [0x0100000032, 0x0200000064, 0x1000000000]
    s.mode = .config ∧ exec .gen s = .next t ∧ t.mode = .error ∧ generatorEmpty s := by
  refine ⟨rfl, rfl, by decide, ?_⟩
  unfold generatorEmpty; decide

theorem witness_MissingFrequencyIsReportedOnlyWithoutDefault :
    State.reset.seenFlag .frequency = false ∧
    State.reset.errKind ≠ .missingRequiredField ∧ exec .gen State.reset = .next (after [0x1000000000]) :=
  ⟨by decide, by decide, rfl⟩

/-- VG2: 44100 div 440 and 44100 div 441. -/
theorem witness_GenDependsOnRatesOnlyThroughThePeriod :
    let s := after [0x01000001B8, 0x020000AC44]
    let s' := after [0x01000001B9, 0x020000AC44]
    let t := after [0x01000001B8, 0x020000AC44, 0x1000000000]
    let t' := after [0x01000001B9, 0x020000AC44, 0x1000000000]
    s.mode = .config ∧ s'.mode = .config ∧ exec .gen s = .next t ∧ exec .gen s' = .next t' ∧ t.mode = .stream ∧
      t'.mode = .stream ∧ s.rate.toNat / s.frequency.toNat = s'.rate.toNat / s'.frequency.toNat ∧ s.width = s'.width ∧
      s.skip = s'.skip ∧ s.seenFlag .len = s'.seenFlag .len ∧ s.len = s'.len ∧ s.repeats = s'.repeats :=
  ⟨rfl, rfl, rfl, rfl, by decide, by decide, by decide, rfl, rfl, by decide, rfl, rfl⟩

/-- VN8 and VN9: PHASE at the end of the table, and the last sample. -/
theorem witness_NextDeliversTheElementAtPhase :
    ((midStream 7 4).mode = .stream ∧ (midStream 7 4).table = some { width := .w8, period := 8 } ∧
      (midStream 7 4).phase.toNat < ({ width := .w8, period := 8 } : Table).period.toNat) ∧
    ((midStream 6 11).mode = .stream ∧ (midStream 6 11).table = some { width := .w8, period := 8 } ∧
      (midStream 6 11).phase.toNat < ({ width := .w8, period := 8 } : Table).period.toNat) := by decide

theorem witness_PortSampleIsTheSineSample :
    0 < ({ width := .w8, period := 8 } : Table).period.toNat ∧
    4294967294 < ({ width := .w32, period := 4294967295 } : Table).period.toNat := by decide

theorem witness_TableIsWrittenByGenAndClearOnly :
    exec (.skip 3) State.reset = .next (after [0x0500000003]) ∧ Instr.skip 3 ≠ .gen ∧ Instr.skip 3 ≠ .clear :=
  ⟨rfl, by decide, by decide⟩

/-- With the last index inside and the first outside. -/
theorem witness_TableReadsAsGenWroteIt :
    configured.mode = .config ∧ exec .gen configured = .next armed ∧ armed.mode = .stream ∧
    7 < armed.period.toNat ∧ armed.period.toNat ≤ 8 := ⟨rfl, rfl, by decide, by decide, by decide⟩

theorem stateInv_armed : StateInv armed := by
  unfold StateInv errorModeIffRecord widthLegal lenRepeatsExclusive generatorEmpty generatorArmed unseenAtReset
  exact ⟨by decide, by decide, by decide, by decide, by decide, by decide, by decide⟩

theorem stateInv_failed : StateInv failed := by
  unfold StateInv errorModeIffRecord widthLegal lenRepeatsExclusive generatorEmpty generatorArmed unseenAtReset
  exact ⟨by decide, by decide, by decide, by decide, by decide, by decide, by decide⟩

/-- For the two statements on the state invariant: a step that completes. -/
theorem witness_EveryStepKeepsTheStateInvariant :
    StateInv (armed.present 0x1F00000000) ∧ step (armed.present 0x1F00000000) = .next State.reset := ⟨stateInv_armed, rfl⟩

theorem witness_EveryStepKeepsTheErrorRecordTrue :
    RecordInv (State.reset.present 0x0600000018) ∧ step (State.reset.present 0x0600000018) = .next failed :=
  ⟨⟨fun _ => ⟨rfl, rfl, rfl, rfl, rfl⟩, fun h => (by cases h)⟩, rfl⟩

/-- Runs that end in each kind of record the block can raise: VE19, VC15, VC12, VE1, VE6, VE9, VE15. -/
theorem witness_every_error_kind_is_reached :
    [[0x0000000000], [0x0100000005, 0x0100000006], [0x0600000018], [0x0300000000, 0x1000000000],
      [0x0400000003, 0x0300000005], [0x0100000064, 0x0200000064, 0x1000000000],
      [0x0100000032, 0x0200000064, 0x1000000000]].map (fun ws => (after ws).errKind) =
    [.unknownField, .duplicateField, .invalidLiteral, .nonPositiveValue, .conflictingLenRepeats, .frequencyExceedsRate,
      .degenerateWave] := by decide

/-- After an error and after the last sample, with slots of every kind to come but `rst` and `clear`. -/
theorem witness_FinishedRunIsFrozenUntilCleared :
    (failed.mode = .error ∧
      ∀ p ∈ { failed with host := [HostInput.command 0x1000000000, HostInput.idle, HostInput.command 0xFF00000001] }.host,
        p.rst = false ∧ opcodeOf p.cmd ≠ 0x1F) ∧
    ({ midStream 7 12 with mode := .done }.mode = .done ∧
      ∀ p ∈ { midStream 7 12 with mode := .done, host := [HostInput.command 0x1100000000] }.host,
        p.rst = false ∧ opcodeOf p.cmd ≠ 0x1F) := by decide

/-- The first and the last index of a period. -/
theorem witness_SineSampleIsTheTruncatedRealSine : 0 < 1 ∧ 4294967294 < 4294967295 := by decide

/-- A period with all four exact cases. -/
theorem witness_SineSampleExactCases :
    (1 ≤ 4 ∧ 4 % 2 = 0 ∧ 4 % 4 = 0) ∧ (0 < 8 ∧ 2 * 4 = 8 ∧ 4 < 8 ∧ 4 * 2 = 8 ∧ 2 < 8 ∧ 4 * 6 = 3 * 8 ∧ 6 < 8) := by decide

theorem witness_SineSampleSymmetries : (0 < 9 ∧ 9 < 10) ∧ (10 % 2 = 0 ∧ 4 < 10 / 2) ∧ (0 < 10 ∧ 5 ≤ 10 / 2) := by decide

theorem witness_SineSampleRange : (3 < 12 ∧ 4 * 3 = 12) ∧ (9 < 12 ∧ 4 * 9 = 3 * 12) ∧ 1 < 3 := by decide

/-- The hypothesis of the second clause holds at the first period where element 1 is 0. -/
theorem witness_TableStartsAtZeroAndAscends :
    4 ≤ 798 ∧ (maxAmp .w8 : ℝ) * Real.sin (2 * Real.pi / (798 : ℕ)) < 1 := by
  refine ⟨by decide, ?_⟩
  have hpi := Real.pi_lt_d6
  have hpos := Real.pi_pos
  have hsin : Real.sin (2 * Real.pi / (798 : ℕ)) < 2 * Real.pi / (798 : ℕ) := Real.sin_lt (by positivity)
  have hamp : ((maxAmp .w8 : ℕ) : ℝ) = 127 := by norm_num [maxAmp, Width.bits]
  rw [hamp]
  push_cast at hsin ⊢
  linarith

/-- The three lengths at which the clauses meet. -/
theorem witness_DegenerateTablesAreLengthsOneAndTwo : 1 ≤ 1 ∧ 1 ≤ 2 ∧ 3 ≤ 3 := by decide

/-- The first and the last sample of the run of VG7. -/
theorem witness_NthNextFollowsTheClosedForm :
    StateInv armed ∧ armed.mode = .stream ∧ armed.index = 0 ∧ 0 < armed.count.toNat ∧ 11 < armed.count.toNat :=
  ⟨stateInv_armed, by decide, by decide, by decide, by decide⟩

/-- The smallest accepted configuration, and the largest operands. -/
theorem witness_InvocationDeliversTheCyclicSine :
    (1 ≤ 1 ∧ 3 * 1 ≤ 3 ∧ 3 < 2 ^ 32 ∧ 1 ≤ 1 ∧ 1 < 2 ^ 32 ∧ 0 < 2 ^ 32) ∧
    (1 ≤ 1431655765 ∧ 3 * 1431655765 ≤ 4294967295 ∧ 4294967295 < 2 ^ 32 ∧ 4294967295 < 2 ^ 32) := by decide

/-- A period that `gen` accepts, one that it rejects, and the largest product. -/
theorem witness_RepeatLengthAndSkipEquivalences :
    (1 ≤ 1 ∧ 1 ≤ 10 ∧ 10 < 2 ^ 32 ∧ 1 ≤ 3 ∧ 3 * (10 / 1) < 2 ^ 32 ∧ 13 < 2 ^ 32) ∧
    (1 ≤ 7 ∧ 7 ≤ 7 ∧ 7 < 2 ^ 32 ∧ 1 ≤ 4294967295 ∧ 4294967295 * (7 / 7) < 2 ^ 32 ∧ 4294967295 < 2 ^ 32) := by decide

theorem witness_StatusOutputsShowTheRegisters : armed.status = { armed with frLast := 0, table := none }.status := rfl

/-- The literals at the bounds: the largest that fits, the smallest that does not, the largest negative. -/
theorem witness_FrontEndRejectsMisplacedLiterals : ConfigField.frequency ≠ .type := by decide

theorem witness_FrontEndKeepsItsContract :
    ConfigField.skip ≠ .type ∧ 4294967295 < 2 ^ 32 ∧ (2 : Int) ^ 32 ≤ 4294967296 ∧ (-1 : Int) < 0 := by decide

end Sys2Proof.Tests
end

section
/-!
The step on a word that decodes (R87), and what an invocation keeps of the state before it (R10, R161): nothing but the host's
coming slots, which no command reads. So every operation commutes with a change of these slots, and `clear`, the first command
of an invocation, leaves the same registers from every state.
-/

namespace Sys2Proof.Laws

open Sys2Proof.Machine

/-- The step takes the next slot, and a presented word that decodes runs as its command on what is left (R44, R87). -/
theorem step_of_decode {s : State} {p : HostInput} {rest : List HostInput} {i : Instr} (hhost : s.host = p :: rest)
    (hrst : p.rst = false) (hvalid : p.cmdValid = true) (hdec : decode p.cmd = .ok i) :
    step s = exec i { s with host := rest } := by
  rcases step_cases s with ⟨hnil, -⟩ | ⟨q, tail, hcons, hslot⟩
  · exact absurd (hhost.symm.trans hnil) (List.cons_ne_nil _ _)
  · obtain ⟨rfl, rfl⟩ := List.cons.inj (hhost.symm.trans hcons)
    rcases hslot with ⟨hreset, -⟩ | ⟨-, hidle, -⟩ | ⟨-, -, ⟨c, hc, hstep⟩ | ⟨r, hr, -⟩⟩
    · exact absurd (hrst.symm.trans hreset) Bool.false_ne_true
    · exact absurd (hidle.symm.trans hvalid) Bool.false_ne_true
    · rw [hstep, Except.ok.inj (hc.symm.trans hdec)]
    · cases hr.symm.trans hdec

/-- The same block with `h` as the host's coming slots. -/
def withHost (h : List HostInput) (s : State) : State := { s with host := h }

/-- A change of the next state, where there is one. -/
def onNext (g : State → State) : Result → Result
  | .next s => .next (g s)
  | .fault r => .fault r
  | .refused r => .refused r

variable (h : List HostInput)

/-! ### The operations and a change of the host's slots -/

@[simp] theorem seenFlag_withHost (f : ConfigField) (s : State) : (withHost h s).seenFlag f = s.seenFlag f := rfl

@[simp] theorem excludedBy_withHost (f : ConfigField) (s : State) : (withHost h s).excludedBy f = s.excludedBy f := rfl

@[simp] theorem reg_withHost (f : ConfigField) (s : State) : (withHost h s).reg f = s.reg f := by cases f <;> rfl

@[simp] theorem blame_withHost (s : State) : (withHost h s).blame = s.blame := rfl

@[simp] theorem firstZeroField_withHost (s : State) : (withHost h s).firstZeroField = s.firstZeroField := rfl

@[simp] theorem periodLength_withHost (s : State) : (withHost h s).periodLength = s.periodLength := rfl

@[simp] theorem drawCommands_withHost (s : State) : (withHost h s).drawCommands = s.drawCommands := rfl

@[simp] theorem resultOf_withHost (l : List (BitVec 32)) (s : State) : resultOf l (withHost h s) = resultOf l s := rfl

@[simp] theorem writeReg_withHost (f : ConfigField) (v : Operand) (s : State) :
    (withHost h s).writeReg f v = withHost h (s.writeReg f v) := by cases f <;> rfl

@[simp] theorem setSeen_withHost (f : ConfigField) (s : State) :
    (withHost h s).setSeen f = withHost h (s.setSeen f) := rfl

@[simp] theorem noteFrLast_withHost (f : ConfigField) (s : State) :
    (withHost h s).noteFrLast f = withHost h (s.noteFrLast f) := by cases f <;> rfl

@[simp] theorem respondOk_withHost (s : State) : (withHost h s).respondOk = withHost h s.respondOk := rfl

@[simp] theorem respondNak_withHost (s : State) : (withHost h s).respondNak = withHost h s.respondNak := rfl

@[simp] theorem raise_withHost (k : ErrKind) (f : Option ConfigField) (op : Opcode) (v o : Word) (s : State) :
    (withHost h s).raise k f op v o = withHost h (s.raise k f op v o) := rfl

@[simp] theorem arm_withHost (P : Word) (s : State) : (withHost h s).arm P = withHost h (s.arm P) := rfl

/-- The return to reset forgets everything of the state but the host's slots (R161). -/
theorem toReset_eq_withHost (s : State) : s.toReset = withHost s.host State.reset.toReset := rfl

/-! ### The commands and a change of the host's slots -/

/-- A gated command commutes with the change when the command does. -/
theorem whenMode_withHost {m : Mode} {run : State → Result} {s : State}
    (hrun : run (withHost h s) = onNext (withHost h) (run s)) :
    whenMode m run (withHost h s) = onNext (withHost h) (whenMode m run s) := by
  by_cases hm : s.mode = m
  · rw [whenMode_in hm, whenMode_in (s := withHost h s) hm, hrun]
  · rw [whenMode_out hm, whenMode_out (s := withHost h s) hm, respondNak_withHost, onNext]

theorem entry_withHost (f : ConfigField) (op : Opcode) (v : Operand) (s : State) :
    entry f op v (withHost h s) = withHost h (entry f op v s) := by
  unfold entry
  simp only [seenFlag_withHost, excludedBy_withHost, reg_withHost, raise_withHost, writeReg_withHost, setSeen_withHost,
    noteFrLast_withHost, respondOk_withHost]
  split
  · rfl
  · split
    · rfl
    · split <;> rfl

theorem generate_withHost (b : Bool) (op : Opcode) (s : State) :
    generate b op (withHost h s) = withHost h (generate b op s) := by
  unfold generate
  simp only [seenFlag_withHost, firstZeroField_withHost, periodLength_withHost, blame_withHost, reg_withHost, raise_withHost,
    arm_withHost]
  split
  · rfl
  · split
    · rfl
    · split
      · rfl
      · split <;> rfl

theorem deliver_withHost (s : State) : deliver (withHost h s) = onNext (withHost h) (deliver s) := by
  have hread : (withHost h s).table.read (withHost h s).phase.toNat = s.table.read s.phase.toNat := rfl
  unfold deliver
  rw [hread]
  cases s.table.read s.phase.toNat <;> rfl

/-- No command reads the host's slots. -/
theorem exec_withHost (i : Instr) (s : State) : exec i (withHost h s) = onNext (withHost h) (exec i s) := by
  rcases instr_cases i with ⟨f, v, rfl⟩ | rfl | rfl | rfl
  · rw [exec_entryInstr, exec_entryInstr]
    exact whenMode_withHost h (congrArg Host.Outcome.next (entry_withHost h f _ v s))
  · rw [exec_gen, exec_gen]
    exact whenMode_withHost h (congrArg Host.Outcome.next (generate_withHost h true 0x10 s))
  · rw [exec_next, exec_next]
    exact whenMode_withHost h (deliver_withHost h s)
  · rfl

theorem execReserved_withHost (r : DecodeRefusal) (s : State) :
    execReserved r (withHost h s) = onNext (withHost h) (execReserved r s) := by
  obtain ⟨op, v⟩ := r
  rw [execReserved_eq, execReserved_eq]
  exact whenMode_withHost h rfl

/-! ### An invocation and a change of the host's slots -/

theorem issue_withHost (w : CommandWord) (s : State) : issue w (withHost h s) = onNext (withHost h) (issue w s) := by
  unfold issue
  rw [step_present, step_present]
  cases decode w with
  | ok i => exact exec_withHost h i s
  | error r => exact execReserved_withHost h r s

theorem issueAll_withHost (ws : List CommandWord) (s : State) :
    issueAll ws (withHost h s) = onNext (withHost h) (issueAll ws s) := by
  induction ws generalizing s with
  | nil => rfl
  | cons w ws ih =>
    unfold issueAll
    rw [issue_withHost]
    cases issue w s with
    | next t => exact ih t
    | fault r => rfl
    | refused r => rfl

/-- The samples do not depend on the host's slots, which stand in the last state as they were. -/
theorem collectSamples_withHost (ws : List CommandWord) (s : State) :
    collectSamples ws (withHost h s) = (collectSamples ws s).map (fun r => (r.1, withHost h r.2)) := by
  induction ws generalizing s with
  | nil => rfl
  | cons w ws ih =>
    unfold collectSamples
    rw [issue_withHost]
    cases issue w s with
    | next t =>
      simp only [onNext, ih t, Option.map_map]
      rfl
    | fault r => rfl
    | refused r => rfl

/-- Two invocations whose commands up to `gen` end alike but for the host's slots have one result. -/
theorem invoke_eq_of_issueAll {es : List SourceEntry} {s t : State}
    (hrun : ∀ ws, invocation es = .ok ws → issueAll ws s = onNext (withHost h) (issueAll ws t)) :
    invoke es s = invoke es t := by
  unfold invoke
  cases hwords : invocation es with
  | error k => rfl
  | ok ws =>
    dsimp only
    rw [hrun ws hwords]
    cases issueAll ws t with
    | fault r => rfl
    | refused r => rfl
    | next u =>
      simp only [onNext, drawCommands_withHost, collectSamples_withHost]
      cases collectSamples u.drawCommands u <;> rfl

/-- `clear` returns to reset from every state (R161). -/
theorem issue_clear (s : State) : issue (encode .clear) s = .next s.toReset := rfl

/-- After `clear`, the words run as from the reset state. -/
theorem issueAll_clear (ws : List CommandWord) (s : State) :
    issueAll (encode .clear :: ws) s = onNext (withHost s.host) (issueAll (encode .clear :: ws) State.reset) := by
  rw [issueAll_cons (issue_clear s), issueAll_cons (issue_clear State.reset), toReset_eq_withHost, issueAll_withHost]

/-- The words of an invocation begin with `clear` (R91). -/
theorem invocation_ok {es : List SourceEntry} {ws : List CommandWord} (hwords : invocation es = .ok ws) :
    ∃ tail, ws = encode .clear :: tail := by
  unfold invocation at hwords
  cases hmap : es.mapM frontEnd with
  | error k => rw [hmap] at hwords; cases hwords
  | ok vs => rw [hmap] at hwords; exact ⟨vs ++ [encode .gen], (Except.ok.inj hwords).symm⟩

/-- Every invocation is the invocation on the block after reset (R10, R91). -/
theorem invoke_eq_reset (es : List SourceEntry) (s : State) : invoke es s = invoke es State.reset := by
  refine invoke_eq_of_issueAll s.host fun ws hwords => ?_
  obtain ⟨tail, rfl⟩ := invocation_ok hwords
  exact issueAll_clear tail s

end Sys2Proof.Laws
end

section

open Sys2Proof.Machine Sys2Proof.Laws

/-- Settles O7: the one case of the step that a valid slot without `rst` and a decodable word leave. -/
theorem stepRunsTheDecodedCommand : Obligations.StepRunsTheDecodedCommand := by
  intro s p rest i hhost hrst hvalid hdec _
  exact step_of_decode hhost hrst hvalid hdec

/-- Settles O52: from either state the invocation is the one from reset, because `clear` comes first and no command reads the
only thing it leaves, the host's coming slots. -/
theorem invocationForgetsEarlierRuns : Obligations.InvocationForgetsEarlierRuns := by
  intro es s s'
  calc invoke es s
      = invoke es State.reset := invoke_eq_reset es s
    _ = invoke es s' := (invoke_eq_reset es s').symm

end

section
/-!
One induction for every invariant of the step: a property that holds at reset and that each operation a step is made of keeps
is kept by the step (R84, R87, R200, R210).
-/

namespace Sys2Proof.Laws

open Sys2Proof.Machine Sys2Proof.Safety

/-- The decoder rejects reserved opcodes only (R85). -/
theorem isReserved_of_decode_error {w : CommandWord} {r : DecodeRefusal} (h : decode w = .error r) :
    isReserved (opcodeOf w) = true := by
  unfold decode at h
  generalize opcodeOf w = op at h ⊢
  repeat' split at h
  all_goals cases h
  simp only [← BitVec.toNat_inj, isReserved, Bool.or_eq_true, Bool.and_eq_true, beq_iff_eq, decide_eq_true_eq,
    BitVec.le_def, BitVec.reduceToNat] at *
  omega

/-- `I` holds at reset and is kept by everything a step is made of: the host's slots, the answer `nak`, the commands in the
modes that execute them, and the effect of a reserved opcode. -/
structure KeptByOperations (I : State → Prop) : Prop where
  reset : I State.reset
  host : ∀ h s, I s → I (withHost h s)
  nak : ∀ s, I s → I s.respondNak
  entry : ∀ f v s, s.mode = .config → I s → I (entry f (entryInstr f v).opcode v s)
  gen : ∀ s, s.mode = .config → I s → I (generate true 0x10 s)
  next : ∀ v s, s.mode = .stream → I s → I (s.advance.respondSample v)
  reserved : ∀ op v s, s.mode = .config → isReserved op = true → I s → I (s.raise .unknownField none op v s.unsetMask)

namespace KeptByOperations

variable {I : State → Prop} (hI : KeptByOperations I) {s t : State}
include hI

/-- The return to reset leaves the reset state but for the host's slots. -/
theorem toReset (s : State) : I s.toReset := hI.host s.host _ hI.reset

theorem exec {i : Instr} (hs : I s) (h : Machine.exec i s = .next t) : I t := by
  rcases exec_cases h with ⟨-, rfl⟩ | ⟨f, v, rfl, hm, rfl⟩ | ⟨-, hm, rfl⟩ | ⟨-, hm, T, -, -, rfl⟩ | ⟨-, rfl⟩
  · exact hI.nak s hs
  · exact hI.entry f v s hm hs
  · exact hI.gen s hm hs
  · exact hI.next _ s hm hs
  · exact hI.toReset s

theorem execReserved {op : Opcode} {v : Operand} (hop : isReserved op = true) (hs : I s)
    (h : Machine.execReserved (.reserved op v) s = .next t) : I t := by
  rw [execReserved_eq] at h
  rcases whenMode_next h with ⟨hm, ht⟩ | ⟨-, rfl⟩
  · rw [← Host.Outcome.next.inj ht]
    exact hI.reserved op v s hm hop hs
  · exact hI.nak s hs

/-- The step keeps what its operations keep. -/
theorem step (hs : I s) (h : Machine.step s = .next t) : I t := by
  rcases step_cases s with ⟨-, h0⟩ | ⟨i, rest, -, ⟨-, h0⟩ | ⟨-, -, h0⟩ | ⟨-, -, ⟨c, -, h0⟩ | ⟨r, hr, h0⟩⟩⟩ <;> rw [h0] at h
  · cases h; exact hs
  · cases h; exact hI.toReset _
  · cases h; exact hI.host rest s hs
  · exact hI.exec (hI.host rest s hs) h
  · obtain rfl := decode_error hr
    exact hI.execReserved (isReserved_of_decode_error hr) (hI.host rest s hs) h

end KeptByOperations

end Sys2Proof.Laws
end

section
/-!
The two ways an entry command or `gen` can end in MODE CONFIG: it takes an error, or it does its work (R100, R120).
-/

namespace Sys2Proof.Laws

open Sys2Proof.Machine

/-- What an entry command that raises nothing does (R100). -/
def defineField (f : ConfigField) (v : Operand) (s : State) : State :=
  (((s.writeReg f v).setSeen f).noteFrLast f).respondOk

@[simp] theorem seenFlag_defineField (f : ConfigField) (v : Operand) (s : State) (g : ConfigField) :
    (defineField f v s).seenFlag g = (s.seenFlag g || decide (f = g)) := by simp [defineField]

@[simp] theorem defineField_mode (f : ConfigField) (v : Operand) (s : State) : (defineField f v s).mode = s.mode := by
  simp [defineField]

@[simp] theorem defineField_errKind (f : ConfigField) (v : Operand) (s : State) :
    (defineField f v s).errKind = s.errKind := by simp [defineField]

@[simp] theorem defineField_frLast (f : ConfigField) (v : Operand) (s : State) :
    (defineField f v s).frLast = if f = .frequency then 0 else if f = .rate then 1 else s.frLast := by simp [defineField]

@[simp] theorem defineField_frequency (f : ConfigField) (v : Operand) (s : State) :
    (defineField f v s).frequency = if f = .frequency then v else s.frequency := by simp [defineField]

@[simp] theorem defineField_rate (f : ConfigField) (v : Operand) (s : State) :
    (defineField f v s).rate = if f = .rate then v else s.rate := by simp [defineField]

@[simp] theorem defineField_len (f : ConfigField) (v : Operand) (s : State) :
    (defineField f v s).len = if f = .len then v else s.len := by simp [defineField]

@[simp] theorem defineField_repeats (f : ConfigField) (v : Operand) (s : State) :
    (defineField f v s).repeats = if f = .repeats then v else s.repeats := by simp [defineField]

@[simp] theorem defineField_skip (f : ConfigField) (v : Operand) (s : State) :
    (defineField f v s).skip = if f = .skip then v else s.skip := by simp [defineField]

@[simp] theorem defineField_width (f : ConfigField) (v : Operand) (s : State) :
    (defineField f v s).width = if f = .type then (operandWidth v).getD s.width else s.width := by simp [defineField]

theorem entry_raises_or_defines (f : ConfigField) (op : Opcode) (v : Operand) (s : State) :
    (∃ k g o, k ≠ .none ∧ entry f op v s = s.raise k (some g) op v o) ∨
    (s.excludedBy f = none ∧ entry f op v s = defineField f v s) := by
  rcases entry_cases f op v s with ⟨-, he⟩ | ⟨-, g, -, he⟩ | ⟨-, -, -, -, he⟩ | ⟨-, hex, -, he⟩
  · exact .inl ⟨_, _, _, by decide, he⟩
  · exact .inl ⟨_, _, _, by decide, he⟩
  · exact .inl ⟨_, _, _, by decide, he⟩
  · exact .inr ⟨hex, he⟩

theorem generate_raises_or_arms (b : Bool) (op : Opcode) (s : State) :
    (∃ k f v o, k ≠ .none ∧ generate b op s = s.raise k (some f) op v o) ∨
    (s.firstZeroField = none ∧ 3 ≤ s.periodLength.toNat ∧ generate b op s = s.arm s.periodLength) := by
  rcases generate_cases b op s with ⟨-, -, hg⟩ | ⟨f, -, hg⟩ | ⟨-, -, hg⟩ | ⟨-, -, hg⟩ | harm
  · exact .inl ⟨_, _, _, _, by decide, hg⟩
  · exact .inl ⟨_, _, _, _, by decide, hg⟩
  · exact .inl ⟨_, _, _, _, by decide, hg⟩
  · exact .inl ⟨_, _, _, _, by decide, hg⟩
  · exact .inr harm

end Sys2Proof.Laws
end

section
/-!
What the operations do to the generator registers as numbers (R31, R32, R33, R123), and that they keep the invariant of R43.
-/

namespace Sys2Proof.Laws

open Sys2Proof.Machine Sys2Proof.Safety

variable {s : State}

/-! ### The generator registers as numbers -/

/-- COUNT is the mathematical number of R128: the product of two 32-bit numbers fits 64 bits (R31). -/
theorem outputCount_toNat (P : Word) (s : State) :
    (s.outputCount P).toNat = if s.seenFlag .len then s.len.toNat else P.toNat * s.repeats.toNat := by
  have hwide : ∀ x : Word, (x.setWidth 64).toNat = x.toNat := fun x =>
    BitVec.toNat_setWidth_of_le (by decide)
  have hprod : P.toNat * s.repeats.toNat < 2 ^ 32 * 2 ^ 32 := Nat.mul_lt_mul'' P.isLt s.repeats.isLt
  unfold State.outputCount
  split
  · exact hwide s.len
  · rw [BitVec.toNat_mul, hwide, hwide]
    exact Nat.mod_eq_of_lt hprod

/-- PHASE moves on by one element and wraps at PERIOD (R32). -/
theorem advance_phase_toNat (h : s.phase.toNat < s.period.toNat) :
    s.advance.phase.toNat = (s.phase.toNat + 1) % s.period.toNat := by
  have hperiod := s.period.isLt
  rw [advance_phase]
  split
  · next hwrap => rw [hwrap, Nat.mod_self]; rfl
  · next hinside =>
    rw [Nat.mod_eq_of_lt (by omega), BitVec.toNat_add_of_lt (by simp; omega)]
    rfl

/-- INDEX does not overflow, because it never exceeds COUNT (R33). -/
theorem advance_index_toNat (h : s.index.toNat < s.count.toNat) : s.advance.index.toNat = s.index.toNat + 1 := by
  have hcount := s.count.isLt
  rw [advance_index, BitVec.toNat_add_of_lt (by simp; omega)]
  rfl

/-! ### The clauses of R43 -/

theorem widthLegal_of_tag (s : State) : widthLegal s := by
  cases h : s.width <;> simp [widthLegal, h, Width.code]

theorem phase_lt_period (h : generatorArmed s) : s.phase.toNat < s.period.toNat := by
  obtain ⟨hperiod, -, hphase, -⟩ := h
  rw [hphase]
  exact Nat.mod_lt _ (by omega)

/-- A successful `gen` arms the generator (R128, R129). -/
theorem generatorArmed_arm (hz : s.firstZeroField = none) (hP : 3 ≤ s.periodLength.toNat) :
    generatorArmed (s.arm s.periodLength) := by
  obtain ⟨hfreq, -, hlen, hrep⟩ := firstZeroField_none hz
  have hpos := BitVec.toNat_pos_of_ne_zero hfreq
  have hcount : 0 < (s.outputCount s.periodLength).toNat := by
    rw [outputCount_toNat]
    split
    · next hseen => exact BitVec.toNat_pos_of_ne_zero (hlen hseen)
    · exact Nat.mul_pos (by omega) (BitVec.toNat_pos_of_ne_zero hrep)
  have hrate : 3 * s.frequency.toNat ≤ s.rate.toNat := by
    rw [periodLength_toNat] at hP
    exact (Nat.le_div_iff_mul_le hpos).mp hP
  refine ⟨hP, hcount, ?_, hpos, hrate, periodLength_toNat s, rfl⟩
  simp

/-- A delivered sample moves PHASE and INDEX together (R160). -/
theorem generatorArmed_advance (h : generatorArmed s) (hindex : s.index.toNat < s.count.toNat) :
    generatorArmed s.advance := by
  have hlt := phase_lt_period h
  obtain ⟨hperiod, hcount, hphase, hrest⟩ := h
  refine ⟨hperiod, hcount, ?_, hrest⟩
  rw [advance_phase_toNat hlt, advance_index_toNat hindex, hphase, Nat.mod_add_mod, advance_skip, advance_period, add_assoc]

/-- An entry command defines its own field and leaves the others (R100). -/
theorem unseenAtReset_define (f : ConfigField) (v : Operand) (h : unseenAtReset s) :
    unseenAtReset (defineField f v s) := by
  have keep : ∀ {α : Type} {a b c : α} (g : ConfigField), (s.seenFlag g = false → b = c) →
      (s.seenFlag g || decide (f = g)) = false → (if f = g then a else b) = c := by
    intro α a b c g hg hunseen
    obtain ⟨hseen, hne⟩ := Bool.or_eq_false_iff.mp hunseen
    rw [if_neg (of_decide_eq_false hne), hg hseen]
  obtain ⟨hfreq, hrate, hlen, hrep, hskip, htype⟩ := h
  simp only [unseenAtReset, seenFlag_defineField, defineField_frequency, defineField_rate, defineField_len,
    defineField_repeats, defineField_skip, defineField_width]
  exact ⟨keep _ hfreq, keep _ hrate, keep _ hlen, keep _ hrep, keep _ hskip, keep _ htype⟩

/-- An entry command that meets no conflict leaves `len` and `repeats` exclusive (R100). -/
theorem lenRepeatsExclusive_define {f : ConfigField} (v : Operand) (hex : s.excludedBy f = none)
    (h : lenRepeatsExclusive s) : lenRepeatsExclusive (defineField f v s) := by
  obtain ⟨hlen, hrep⟩ := excludedBy_none hex
  rintro ⟨h1, h2⟩
  simp only [seenFlag_defineField, Bool.or_eq_true, decide_eq_true_eq] at h1 h2
  rcases h1 with h1 | rfl
  · rcases h2 with h2 | rfl
    · exact h ⟨h1, h2⟩
    · exact Bool.false_ne_true ((hrep rfl).symm.trans h1)
  · rcases h2 with h2 | h2
    · exact Bool.false_ne_true ((hlen rfl).symm.trans h2)
    · cases h2

/-! ### The operations keep the invariant -/

theorem stateInv_reset : StateInv State.reset := by
  refine ⟨by simp [errorModeIffRecord, State.reset], widthLegal_of_tag _, by simp [lenRepeatsExclusive],
    fun _ => ⟨rfl, rfl, rfl, rfl, rfl⟩, nofun, nofun, ?_⟩
  exact ⟨fun _ => rfl, fun _ => rfl, fun _ => rfl, fun _ => rfl, fun _ => rfl, fun _ => rfl⟩

/-- Taking an error in MODE CONFIG leaves the generator empty and the configuration as it was (R176). -/
theorem stateInv_raise {k : ErrKind} (hk : k ≠ .none) (f : Option ConfigField) (op : Opcode) (v o : Word)
    (hm : s.mode = .config) (h : StateInv s) : StateInv (s.raise k f op v o) := by
  obtain ⟨-, hwidth, hexcl, hempty, -, -, hunseen⟩ := h
  exact ⟨⟨fun _ => hk, fun _ => rfl⟩, hwidth, hexcl, fun _ => hempty (.inl hm), nofun, nofun, hunseen⟩

theorem stateInv_define {f : ConfigField} (v : Operand) (hex : s.excludedBy f = none) (hm : s.mode = .config)
    (h : StateInv s) : StateInv (defineField f v s) := by
  obtain ⟨herr, -, hexcl, hempty, -, -, hunseen⟩ := h
  refine ⟨?_, widthLegal_of_tag _, lenRepeatsExclusive_define v hex hexcl, fun _ => ?_, ?_, ?_, unseenAtReset_define f v hunseen⟩
  · simpa [errorModeIffRecord] using herr
  · simpa [generatorEmpty, defineField] using hempty (.inl hm)
  · simp [hm]
  · simp [hm]

theorem stateInv_entry (f : ConfigField) (op : Opcode) (v : Operand) (hm : s.mode = .config) (h : StateInv s) :
    StateInv (entry f op v s) := by
  rcases entry_raises_or_defines f op v s with ⟨k, g, o, hk, he⟩ | ⟨hex, he⟩ <;> rw [he]
  · exact stateInv_raise hk _ _ _ _ hm h
  · exact stateInv_define v hex hm h

theorem stateInv_arm (hz : s.firstZeroField = none) (hP : 3 ≤ s.periodLength.toNat) (hm : s.mode = .config)
    (h : StateInv s) : StateInv (s.arm s.periodLength) := by
  have harmed := generatorArmed_arm hz hP
  have ⟨_, hcount, _⟩ := harmed
  obtain ⟨herr, hwidth, hexcl, -, -, -, hunseen⟩ := h
  have hnone : s.errKind = .none := by simpa [errorModeIffRecord, hm] using herr
  refine ⟨?_, hwidth, hexcl, ?_, fun _ => ⟨harmed, hcount⟩, nofun, hunseen⟩
  · simp [errorModeIffRecord, hnone]
  · simp

theorem stateInv_generate (op : Opcode) (hm : s.mode = .config) (h : StateInv s) : StateInv (generate true op s) := by
  rcases generate_raises_or_arms true op s with ⟨k, f, v, o, hk, hg⟩ | ⟨hz, hP, hg⟩ <;> rw [hg]
  · exact stateInv_raise hk _ _ _ _ hm h
  · exact stateInv_arm hz hP hm h

/-- A delivered sample goes on in STREAM, or to DONE with the last one, where INDEX = COUNT (R160). -/
theorem stateInv_deliver (v : BitVec 32) (hm : s.mode = .stream) (h : StateInv s) :
    StateInv (s.advance.respondSample v) := by
  obtain ⟨herr, hwidth, hexcl, -, hstream, -, hunseen⟩ := h
  obtain ⟨harmed, hlt⟩ := hstream hm
  have harmed' : generatorArmed (s.advance.respondSample v) := generatorArmed_advance harmed hlt
  have hindex := advance_index_toNat hlt
  have hmode : (s.advance.respondSample v).mode = if s.index.toNat + 1 = s.count.toNat then .done else .stream := by
    rw [respondSample_mode, advance_mode, hm]
  have hnone : s.errKind = .none := by simpa [errorModeIffRecord, hm] using herr
  refine ⟨?_, hwidth, hexcl, ?_, fun hs => ⟨harmed', ?_⟩, fun hd => ⟨harmed', ?_⟩, hunseen⟩
  · rw [errorModeIffRecord, hmode]
    split <;> simp [hnone]
  · rw [hmode]
    split <;> simp
  · have hmore : s.index.toNat + 1 ≠ s.count.toNat := fun hlast => by rw [hmode, if_pos hlast] at hs; cases hs
    rw [respondSample_index, hindex, respondSample_count, advance_count]
    omega
  · have hlast : s.index.toNat + 1 = s.count.toNat := by_contra fun hmore => by rw [hmode, if_neg hmore] at hd; cases hd
    rw [respondSample_index, hindex, respondSample_count, advance_count, hlast]

theorem stateInv_kept : KeptByOperations StateInv where
  reset := stateInv_reset
  host _ _ h := h
  nak _ h := h
  entry f v _ hm h := stateInv_entry f _ v hm h
  gen _ hm h := stateInv_generate _ hm h
  next v _ hm h := stateInv_deliver v hm h
  reserved _ _ _ hm _ h := stateInv_raise (by decide) _ _ _ _ hm h

end Sys2Proof.Laws
end

section

open Sys2Proof.Machine Sys2Proof.Laws

/-- Settles O38: the clauses of R43 read off the reset values. -/
theorem stateInvariantHoldsAtReset : Obligations.StateInvariantHoldsAtReset := stateInv_reset

/-- Settles O39: every operation a step is made of keeps the clauses of R43, so the step does. -/
theorem everyStepKeepsTheStateInvariant : Obligations.EveryStepKeepsTheStateInvariant :=
  fun _ _ => stateInv_kept.step

end

section
/-!
The error record (R35 to R39, R179 to R186): each `raise` of the block writes what the rule of its kind says, and everything
else that runs outside MODE ERROR leaves the record at its reset values.
-/

namespace Sys2Proof.Laws

open Sys2Proof.Machine Sys2Proof.Safety

variable {s : State}

@[simp] theorem reg_raise (k : ErrKind) (f : Option ConfigField) (op : Opcode) (v o : Word) (s : State) (g : ConfigField) :
    (s.raise k f op v o).reg g = s.reg g := by cases g <;> rfl

/-- The opcode of an entry command is the id of its field (R178). -/
theorem entryInstr_opcode (f : ConfigField) (v : Operand) : (entryInstr f v).opcode = f.id.setWidth 8 := by
  cases f <;> rfl

/-- The operands that name no width (R106). -/
theorem operandWidth_none {v : Operand} (h : operandWidth v = none) : v ≠ 8 ∧ v ≠ 16 ∧ v ≠ 32 := by
  unfold operandWidth at h
  split_ifs at h with h8 h16 h32
  exact ⟨h8, h16, h32⟩

/-! ### The kinds of R177, one rule for each `raise` of the block -/

theorem recordInv_raise_unknownField {op : Opcode} (hop : isReserved op = true) (v : Operand) :
    RecordInv (s.raise .unknownField none op v s.unsetMask) := by
  refine ⟨fun h => absurd rfl h, fun _ => ?_⟩
  simp only [raise_errKind]
  exact ⟨rfl, hop, unsetMask_eq s⟩

theorem recordInv_raise_duplicateField {f : ConfigField} (hseen : s.seenFlag f = true) (v : Operand) :
    RecordInv (s.raise .duplicateField (some f) (entryInstr f v).opcode v (s.reg f)) := by
  refine ⟨fun h => absurd rfl h, fun _ => ?_⟩
  simp only [raise_errKind]
  exact ⟨f, rfl, entryInstr_opcode f v, hseen, (reg_raise ..).symm⟩

theorem recordInv_raise_conflict {f g : ConfigField} (hex : s.excludedBy f = some g) (v : Operand) :
    RecordInv (s.raise .conflictingLenRepeats (some f) (entryInstr f v).opcode v (s.reg g)) := by
  refine ⟨fun h => absurd rfl h, fun _ => ?_⟩
  simp only [raise_errKind]
  rcases excludedBy_some hex with ⟨rfl, rfl, hseen⟩ | ⟨rfl, rfl, hseen⟩
  · exact .inl ⟨rfl, rfl, hseen, rfl⟩
  · exact .inr ⟨rfl, rfl, hseen, rfl⟩

theorem recordInv_raise_invalidLiteral {v : Operand} (hseen : s.seenFlag .type = false) (hv : operandWidth v = none) :
    RecordInv (s.raise .invalidLiteral (some .type) 0x06 v 0) := by
  refine ⟨fun h => absurd rfl h, fun _ => ?_⟩
  simp only [raise_errKind]
  exact ⟨rfl, rfl, hseen, operandWidth_none hv, rfl⟩

theorem recordInv_raise_nonPositiveValue {f : ConfigField} (hz : s.firstZeroField = some f) :
    RecordInv (s.raise .nonPositiveValue (some f) 0x10 0 0) := by
  refine ⟨fun h => absurd rfl h, fun _ => ?_⟩
  simp only [raise_errKind]
  refine ⟨?_, rfl, rfl, rfl⟩
  rcases firstZeroField_some hz with ⟨rfl, h⟩ | ⟨rfl, h⟩ | ⟨rfl, h⟩ | ⟨rfl, h⟩
  · exact .inl ⟨rfl, h⟩
  · exact .inr (.inl ⟨rfl, h⟩)
  · exact .inr (.inr (.inl ⟨rfl, h⟩))
  · exact .inr (.inr (.inr ⟨rfl, h⟩))

/-- The record of a frequency/rate error holds the blamed field, its value and the other's (R125). -/
theorem blamedPairRecorded_raise (k : ErrKind) (op : Opcode) (s : State) :
    blamedPairRecorded (s.raise k (some s.blame) op (s.reg s.blame) (s.reg (otherOfPair s.blame))) := by
  refine ⟨rfl, ?_⟩
  rcases blame_cases s with hb | hb
  · exact .inl ⟨hb, by rw [hb]; rfl, by rw [hb]; rfl⟩
  · exact .inr ⟨hb, by rw [hb]; rfl, by rw [hb]; rfl⟩

theorem recordInv_raise_frequencyExceedsRate (hz : s.firstZeroField = none) (hP : s.periodLength.toNat < 2) :
    RecordInv (s.raise .frequencyExceedsRate (some s.blame) 0x10 (s.reg s.blame) (s.reg (otherOfPair s.blame))) := by
  obtain ⟨hfreq, -⟩ := firstZeroField_none hz
  rw [periodLength_toNat, Nat.div_lt_iff_lt_mul (BitVec.toNat_pos_of_ne_zero hfreq)] at hP
  refine ⟨fun h => absurd rfl h, fun _ => ?_⟩
  simp only [raise_errKind]
  exact ⟨rfl, hP, blamedPairRecorded_raise _ _ s⟩

theorem recordInv_raise_degenerateWave (hz : s.firstZeroField = none) (hP : s.periodLength.toNat = 2) :
    RecordInv (s.raise .degenerateWave (some s.blame) 0x10 (s.reg s.blame) (s.reg (otherOfPair s.blame))) := by
  obtain ⟨hfreq, -⟩ := firstZeroField_none hz
  have hpos := BitVec.toNat_pos_of_ne_zero hfreq
  rw [periodLength_toNat] at hP
  have hlow : 2 * s.frequency.toNat ≤ s.rate.toNat := (Nat.le_div_iff_mul_le hpos).mp hP.ge
  have hhigh : s.rate.toNat < 3 * s.frequency.toNat := (Nat.div_lt_iff_lt_mul hpos).mp (by omega)
  refine ⟨fun h => absurd rfl h, fun _ => ?_⟩
  simp only [raise_errKind]
  exact ⟨rfl, hlow, hhigh, blamedPairRecorded_raise _ _ s⟩

/-! ### The operations keep the record true -/

theorem recordInv_reset : RecordInv State.reset := ⟨fun _ => ⟨rfl, rfl, rfl, rfl, rfl⟩, nofun⟩

theorem recordInv_define (f : ConfigField) (v : Operand) (hm : s.mode = .config) (h : RecordInv s) :
    RecordInv (defineField f v s) := by
  obtain ⟨hempty, -⟩ := h
  refine ⟨fun _ => ?_, fun he => ?_⟩
  · simpa [defineField] using hempty (by simp [hm])
  · simp [hm] at he

theorem recordInv_entry (f : ConfigField) (v : Operand) (hm : s.mode = .config) (h : RecordInv s) :
    RecordInv (entry f (entryInstr f v).opcode v s) := by
  rcases entry_cases f (entryInstr f v).opcode v s with
    ⟨hseen, he⟩ | ⟨-, g, hex, he⟩ | ⟨hseen, -, rfl, hv, he⟩ | ⟨-, -, -, he⟩ <;> rw [he]
  · exact recordInv_raise_duplicateField hseen v
  · exact recordInv_raise_conflict hex v
  · exact recordInv_raise_invalidLiteral hseen hv
  · exact recordInv_define f v hm h

theorem recordInv_generate (hm : s.mode = .config) (h : RecordInv s) : RecordInv (generate true 0x10 s) := by
  obtain ⟨hempty, -⟩ := h
  rcases generate_cases true 0x10 s with ⟨hb, -⟩ | ⟨f, hz, hg⟩ | ⟨hz, hP, hg⟩ | ⟨hz, hP, hg⟩ | ⟨-, -, hg⟩
  · cases hb
  · rw [hg]; exact recordInv_raise_nonPositiveValue hz
  · rw [hg]; exact recordInv_raise_frequencyExceedsRate hz hP
  · rw [hg]; exact recordInv_raise_degenerateWave hz hP
  · rw [hg]; exact ⟨fun _ => hempty (by simp [hm]), nofun⟩

theorem recordInv_deliver (v : BitVec 32) (hm : s.mode = .stream) (h : RecordInv s) :
    RecordInv (s.advance.respondSample v) := by
  obtain ⟨hempty, -⟩ := h
  refine ⟨fun _ => hempty (by simp [hm]), fun he => ?_⟩
  rw [respondSample_mode, advance_mode, hm] at he
  split at he <;> cases he

theorem recordInv_kept : KeptByOperations RecordInv where
  reset := recordInv_reset
  host _ _ h := h
  nak _ h := h
  entry f v _ hm h := recordInv_entry f v hm h
  gen _ hm h := recordInv_generate hm h
  next v _ hm h := recordInv_deliver v hm h
  reserved _ v _ _ hop _ := recordInv_raise_unknownField hop v

end Sys2Proof.Laws
end

section
/-!
MODE, SEEN and FR_LAST: who moves them, and the field `Blame` answers (R21, R22, R29, R42, R86, R125).
-/

namespace Sys2Proof.Laws

open Sys2Proof.Machine Sys2Proof.Safety

variable {s t : State}

/-! ### Mode gating, command by command (R86) -/

@[simp] theorem executesIn_entryInstr (m : Mode) (f : ConfigField) (v : Operand) :
    executesIn m (entryInstr f v).opcode = decide (m = .config) := by cases f <;> rfl

@[simp] theorem executesIn_gen (m : Mode) : executesIn m Instr.gen.opcode = decide (m = .config) := rfl

@[simp] theorem executesIn_next (m : Mode) : executesIn m Instr.next.opcode = decide (m = .stream) := rfl

@[simp] theorem executesIn_clear (m : Mode) : executesIn m Instr.clear.opcode = true := rfl

/-- Out of its mode a command is answered `nak`. -/
theorem exec_out {i : Instr} (h : executesIn s.mode i.opcode = false) : exec i s = .next s.respondNak := by
  rcases instr_cases i with ⟨f, v, rfl⟩ | rfl | rfl | rfl
  · rw [exec_entryInstr]; exact whenMode_out (by simpa using h)
  · rw [exec_gen]; exact whenMode_out (by simpa using h)
  · rw [exec_next]; exact whenMode_out (by simpa using h)
  · cases h

theorem entryInstr_ne_gen (f : ConfigField) (v : Operand) : entryInstr f v ≠ .gen := by cases f <;> nofun

theorem entryInstr_ne_next (f : ConfigField) (v : Operand) : entryInstr f v ≠ .next := by cases f <;> nofun

theorem entryInstr_ne_clear (f : ConfigField) (v : Operand) : entryInstr f v ≠ .clear := by cases f <;> nofun

/-! ### MODE (R21) -/

/-- An entry command stays in its mode without touching the error record, or takes an error. -/
theorem entry_mode (f : ConfigField) (op : Opcode) (v : Operand) (s : State) :
    ((entry f op v s).mode = s.mode ∧ (entry f op v s).errKind = s.errKind) ∨
    ((entry f op v s).mode = .error ∧ (entry f op v s).errKind ≠ .none) := by
  rcases entry_raises_or_defines f op v s with ⟨k, g, o, hk, he⟩ | ⟨-, he⟩ <;> rw [he]
  · exact .inr ⟨rfl, hk⟩
  · exact .inl ⟨defineField_mode f v s, defineField_errKind f v s⟩

/-- `gen` goes to STREAM without touching the error record, or takes an error. -/
theorem generate_mode (b : Bool) (op : Opcode) (s : State) :
    ((generate b op s).mode = .stream ∧ (generate b op s).errKind = s.errKind) ∨
    ((generate b op s).mode = .error ∧ (generate b op s).errKind ≠ .none) := by
  rcases generate_raises_or_arms b op s with ⟨k, f, v, o, hk, hg⟩ | ⟨-, -, hg⟩ <;> rw [hg]
  · exact .inr ⟨rfl, hk⟩
  · exact .inl ⟨rfl, rfl⟩

/-! ### SEEN and FR_LAST (R22, R29) -/

/-- An entry command leaves SEEN, or sets the flag of its field. -/
theorem entry_seenFlag (f : ConfigField) (op : Opcode) (v : Operand) (s : State) :
    (∀ g, (entry f op v s).seenFlag g = s.seenFlag g) ∨
    (∀ g, (entry f op v s).seenFlag g = (s.seenFlag g || decide (f = g))) := by
  rcases entry_raises_or_defines f op v s with ⟨k, g, o, -, he⟩ | ⟨-, he⟩ <;> rw [he]
  · exact .inl fun _ => rfl
  · exact .inr fun g => seenFlag_defineField f v s g

/-- An entry command of another field leaves FR_LAST. -/
theorem entry_frLast {f : ConfigField} (hfreq : f ≠ .frequency) (hrate : f ≠ .rate) (op : Opcode) (v : Operand) (s : State) :
    (entry f op v s).frLast = s.frLast := by
  rcases entry_raises_or_defines f op v s with ⟨k, g, o, -, he⟩ | ⟨-, he⟩ <;> rw [he]
  · rfl
  · rw [defineField_frLast, if_neg hfreq, if_neg hrate]

theorem generate_flags (b : Bool) (op : Opcode) (s : State) :
    (generate b op s).seen = s.seen ∧ (generate b op s).frLast = s.frLast := by
  rcases generate_raises_or_arms b op s with ⟨k, f, v, o, -, hg⟩ | ⟨-, -, hg⟩ <;> rw [hg] <;> exact ⟨rfl, rfl⟩

/-- The SEEN flags after a command that is not `clear`: none is cleared, and at most that of the command's own field is set. -/
theorem exec_seenFlag {i : Instr} (hi : i ≠ .clear) (h : exec i s = .next t) (g : ConfigField) :
    t.seenFlag g = s.seenFlag g ∨ (t.seenFlag g = true ∧ ∃ v, i = entryInstr g v) := by
  rcases exec_cases h with ⟨-, rfl⟩ | ⟨f, v, rfl, -, rfl⟩ | ⟨-, -, rfl⟩ | ⟨-, -, T, -, -, rfl⟩ | ⟨hc, -⟩
  · exact .inl rfl
  · rcases entry_seenFlag f (entryInstr f v).opcode v s with hkeep | hset
    · exact .inl (hkeep g)
    · rw [hset]
      by_cases hfg : f = g
      · subst hfg; exact .inr ⟨by simp, v, rfl⟩
      · exact .inl (by simp [hfg])
  · exact .inl (seenFlag_congr (generate_flags true 0x10 s).1 g)
  · exact .inl rfl
  · exact absurd hc hi

/-- A command that writes FR_LAST is `frequency`, `rate` or `clear`. -/
theorem exec_frLast {i : Instr} (h : exec i s = .next t) :
    t.frLast = s.frLast ∨ (∃ v, i = .frequency v) ∨ (∃ v, i = .rate v) ∨ i = .clear := by
  rcases exec_cases h with ⟨-, rfl⟩ | ⟨f, v, rfl, -, rfl⟩ | ⟨-, -, rfl⟩ | ⟨-, -, T, -, -, rfl⟩ | ⟨hc, -⟩
  · exact .inl rfl
  · by_cases hfreq : f = .frequency
    · subst hfreq; exact .inr (.inl ⟨v, rfl⟩)
    · by_cases hrate : f = .rate
      · subst hrate; exact .inr (.inr (.inl ⟨v, rfl⟩))
      · exact .inl (entry_frLast hfreq hrate _ v s)
  · exact .inl (generate_flags true 0x10 s).2
  · exact .inl rfl
  · exact .inr (.inr (.inr hc))

/-! ### The blamed field (R125) -/

/-- With at most one of the two fields supplied, `rate` is blamed exactly when it is the one. -/
theorem blame_of_unpaired (h : ¬ (s.seenFlag .frequency = true ∧ s.seenFlag .rate = true)) :
    s.blame = if s.seenFlag .rate then .rate else .frequency := by
  cases hr : s.seenFlag .rate with
  | false => simp [State.blame, hr]
  | true =>
    have hf : s.seenFlag .frequency = false := by simpa [hr] using h
    simp [State.blame, hf, hr]

/-- With both supplied, FR_LAST decides. -/
theorem blame_of_pair (hf : s.seenFlag .frequency = true) (hr : s.seenFlag .rate = true) :
    s.blame = if s.frLast = 0 then .frequency else .rate := by
  simp [State.blame, hf, hr]

/-- An entry of a field that is not set, is in no conflict and takes any number defines the field. -/
theorem exec_entry_defines {f : ConfigField} {v : Operand} (hm : s.mode = .config) (hseen : s.seenFlag f = false)
    (hex : s.excludedBy f = none) (hf : f ≠ .type) (h : exec (entryInstr f v) s = .next t) :
    t = defineField f v s := by
  rw [exec_entryInstr, whenMode_in hm] at h
  obtain rfl := Host.Outcome.next.inj h
  rcases entry_cases f (entryInstr f v).opcode v s with ⟨hset, -⟩ | ⟨-, g, hg, -⟩ | ⟨-, -, htype, -⟩ | ⟨-, -, -, he⟩
  · exact absurd (hset.symm.trans hseen) (by decide)
  · exact absurd (hg.symm.trans hex) nofun
  · exact absurd htype hf
  · exact he

/-- What `frequency` or `rate` leaves in the registers Blame reads, when it is not a duplicate. -/
theorem exec_pair_entry {f : ConfigField} (hf : f = .frequency ∨ f = .rate) {v : Operand} (hm : s.mode = .config)
    (hseen : s.seenFlag f = false) (h : exec (entryInstr f v) s = .next t) :
    t.mode = .config ∧ (∀ g, t.seenFlag g = (s.seenFlag g || decide (f = g))) ∧
    t.frLast = if f = .frequency then 0 else 1 := by
  have hdef : t = defineField f v s := by
    rcases hf with rfl | rfl
    · exact exec_entry_defines hm hseen rfl nofun h
    · exact exec_entry_defines hm hseen rfl nofun h
  subst hdef
  refine ⟨by simp [hm], fun g => by simp, ?_⟩
  rcases hf with rfl | rfl <;> rfl

end Sys2Proof.Laws
end

section
/-!
TABLE as it is read (R62, R126): a sample fits its element, so the element is the sample.
-/

namespace Sys2Proof.Laws

open Sys2Proof.Machine Sys2Proof.Safety

/-- Inside the quadrant the magnitude lies between 0 and the amplitude (R140, R148). -/
theorem sinMagFloor_bounds (w : Width) {k P : ℕ} (hk : 0 < k) (hkP : k < P) :
    0 ≤ sinMagFloor (maxAmp w) k P ∧ sinMagFloor (maxAmp w) k P ≤ maxAmp w := by
  have hP : (0 : ℝ) < P := by exact_mod_cast hk.trans hkP
  have hangle : angle k P ≤ Real.pi := by
    have hkP' : (k : ℝ) ≤ P := by exact_mod_cast hkP.le
    unfold angle
    rw [div_le_iff₀ (by positivity)]
    nlinarith [Real.pi_pos]
  have hangle0 : 0 ≤ angle k P := by
    unfold angle
    positivity
  have hsin0 := Real.sin_nonneg_of_nonneg_of_le_pi hangle0 hangle
  have hamp : (0 : ℝ) ≤ maxAmp w := Nat.cast_nonneg _
  rw [sinMagFloor_eq w hk hkP]
  constructor
  · exact Int.floor_nonneg.mpr (mul_nonneg hamp hsin0)
  · have hle : (maxAmp w : ℝ) * Real.sin (angle k P) ≤ ((maxAmp w : ℤ) : ℝ) := by
      rw [Int.cast_natCast]
      exact mul_le_of_le_one_right hamp (Real.sin_le_one _)
    exact_mod_cast (Int.floor_le _).trans hle

/-- Off the four axes `4i` is no multiple of the period. -/
theorem off_axes {P i : ℕ} (hi : i < P) (h0 : ¬ (i = 0 ∨ 2 * i = P)) (h1 : 4 * i ≠ P) (h3 : 4 * i ≠ 3 * P) :
    4 * i % P ≠ 0 := by
  intro hmod
  obtain ⟨q, hq⟩ := Nat.dvd_of_mod_eq_zero hmod
  have hq4 : q < 4 := by
    by_contra hge
    have := Nat.mul_le_mul_left P (not_lt.mp hge)
    omega
  interval_cases q <;> omega

/-- Every sample lies between the amplitude and its negative (R149). -/
theorem sineSample_bounds (w : Width) {P i : ℕ} (hi : i < P) :
    -(maxAmp w : ℤ) ≤ sineSample w P i ∧ sineSample w P i ≤ maxAmp w := by
  unfold sineSample
  split_ifs with h0 h1 h3 hhalf
  · omega
  · omega
  · omega
  all_goals
    obtain ⟨hk, hkP⟩ := foldedIndex_bounds (by omega) (off_axes hi h0 h1 h3)
    have := sinMagFloor_bounds w hk hkP
    omega

/-- An element holds its sample: the signed number of WIDTH bits is the sample itself (R61, R126). -/
theorem toInt_element (w : Width) {P i : ℕ} (hi : i < P) :
    (BitVec.ofInt w.bits (sineSample w P i)).toInt = sineSample w P i := by
  obtain ⟨hlow, hhigh⟩ := sineSample_bounds w hi
  have hamp : (maxAmp w : ℤ) < 2 ^ (w.bits - 1) := by cases w <;> decide
  have hbits : 0 < w.bits := by cases w <;> decide
  exact BitVec.toInt_ofInt_eq_self hbits (by omega) (by omega)

/-- A command other than `gen` and `clear` leaves TABLE (R60). -/
theorem exec_table {i : Instr} {s t : State} (h : exec i s = .next t) (hgen : i ≠ .gen) (hclear : i ≠ .clear) :
    t.table = s.table := by
  rcases exec_cases h with ⟨-, rfl⟩ | ⟨f, v, -, -, rfl⟩ | ⟨hg, -⟩ | ⟨-, -, T, -, -, rfl⟩ | ⟨hc, -⟩
  · rfl
  · exact entry_table f _ v s
  · exact absurd hg hgen
  · rfl
  · exact absurd hc hclear

/-- A `gen` that comes to MODE STREAM has armed it. -/
theorem exec_gen_streams {s t : State} (hm : s.mode = .config) (h : exec .gen s = .next t) (ht : t.mode = .stream) :
    t = s.arm s.periodLength := by
  rw [exec_gen, whenMode_in hm] at h
  obtain rfl := Host.Outcome.next.inj h
  rcases generate_raises_or_arms true 0x10 s with ⟨k, f, v, o, -, hg⟩ | ⟨-, -, hg⟩
  · rw [hg] at ht; cases ht
  · exact hg

end Sys2Proof.Laws
end

section
/-!
What one slot of the input pins asks of the step (R44, R200, R210).
-/

namespace Sys2Proof.Laws

open Sys2Proof.Machine

/-- The next slot asserts `rst`, or presents nothing, or presents a command. -/
theorem step_slot_cases {s : State} {p : HostInput} {rest : List HostInput} (hhost : s.host = p :: rest) :
    (p.rst = true ∧ step s = .next { State.reset with host := rest }) ∨
    (p.rst = false ∧ p.cmdValid = false ∧ step s = .next { s with host := rest }) ∨
    (p.rst = false ∧ p.cmdValid = true) := by
  rcases step_cases s with ⟨hnil, -⟩ | ⟨q, tail, hcons, hslot⟩
  · exact absurd (hnil.symm.trans hhost) nofun
  · obtain ⟨rfl, rfl⟩ := List.cons.inj (hhost.symm.trans hcons)
    exact hslot.imp_right (Or.imp_right fun ⟨hrst, hvalid, _⟩ => ⟨hrst, hvalid⟩)

end Sys2Proof.Laws
end

section
/-!
The numbers on the status outputs tell the tags apart (R21, R28, R177, R178).
-/

namespace Sys2Proof.Laws

open Sys2Proof.Machine

theorem modeCode_injective : Function.Injective Mode.code :=
  Function.LeftInverse.injective (g := fun c => Mode.ofNat c.toNat) fun m => by cases m <;> rfl

theorem widthCode_injective : Function.Injective Width.code :=
  Function.LeftInverse.injective (g := fun c => if c = 8 then .w8 else if c = 16 then .w16 else .w32)
    fun w => by cases w <;> rfl

theorem errKindCode_injective : Function.Injective ErrKind.code :=
  Function.LeftInverse.injective (g := fun c => ErrKind.ofNat c.toNat) fun k => by cases k <;> rfl

theorem fieldCode_injective : Function.Injective fieldCode := by
  refine Function.LeftInverse.injective (g := fun c => if c = 0 then none else some (ConfigField.ofNat (c.toNat - 1))) ?_
  rintro (_ | f)
  · rfl
  · cases f <;> rfl

end Sys2Proof.Laws
end

section

open Sys2Proof Sys2Proof.Machine Sys2Proof.Laws

/-- Settles O41: every `raise` writes the record its rule gives, and nothing else writes it. -/
theorem everyStepKeepsTheErrorRecordTrue : Obligations.EveryStepKeepsTheErrorRecordTrue :=
  ⟨recordInv_reset, fun _ _ => recordInv_kept.step⟩

/-- Settles O12, along the cases of a command that executes. -/
theorem modeMovesOnlyAsListed : Obligations.ModeMovesOnlyAsListed := by
  intro i s t h
  refine ⟨fun hout => ?_, fun hin => ?_⟩
  · rw [exec_out hout] at h
    cases h
    rfl
  · rcases exec_cases h with ⟨hout, -⟩ | ⟨f, v, rfl, hm, rfl⟩ | ⟨rfl, hm, rfl⟩ | ⟨rfl, hm, T, -, -, rfl⟩ | ⟨rfl, rfl⟩
    · exact absurd (hout.symm.trans hin) (by decide)
    · refine ⟨fun hc => absurd hc (entryInstr_ne_clear f v), fun hn => absurd hn (entryInstr_ne_next f v),
        fun hg => absurd hg (entryInstr_ne_gen f v), fun _ _ _ => ?_⟩
      rw [← hm]
      exact entry_mode f _ v s
    · exact ⟨nofun, nofun, fun _ => generate_mode true 0x10 s, fun f v hf => absurd hf.symm (entryInstr_ne_gen f v)⟩
    · refine ⟨nofun, fun _ => ?_, nofun, fun f v hf => absurd hf.symm (entryInstr_ne_next f v)⟩
      rw [respondSample_mode, advance_mode, hm]
    · exact ⟨fun _ => rfl, nofun, nofun, fun f v hf => absurd hf.symm (entryInstr_ne_clear f v)⟩

/-- Settles O23: a flag that `clear` does not touch is left or set, and set only by the entry of its field. -/
theorem flagsChangeOnlyByTheirWriters : Obligations.FlagsChangeOnlyByTheirWriters := by
  intro i s t h
  refine ⟨fun f hset hcleared => ?_, fun f hunset hset => ?_, fun hne => ?_⟩
  · by_contra hi
    rcases exec_seenFlag hi h f with hkeep | ⟨hseen, -⟩
    · exact absurd (hset.symm.trans (hkeep.symm.trans hcleared)) (by decide)
    · exact absurd (hseen.symm.trans hcleared) (by decide)
  · have hi : i ≠ .clear := by
      rintro rfl
      cases h
      rw [seenFlag_toReset] at hset
      cases hset
    rcases exec_seenFlag hi h f with hkeep | ⟨-, hentry⟩
    · exact absurd (hset.symm.trans (hkeep.trans hunset)) (by decide)
    · exact hentry
  · exact (exec_frLast h).resolve_left (Ne.symm hne)

/-- Settles O29: the flags and FR_LAST that the one or the two entries leave decide `Blame`. -/
theorem blameFallsOnTheLaterSupplied : Obligations.BlameFallsOnTheLaterSupplied := by
  intro s t u v w hm hf hr
  refine ⟨by rw [blame_of_unpaired (by simp [hf]), hr]; rfl, fun h => ?_, fun h => ?_⟩
  · obtain ⟨htm, hts, -⟩ := exec_pair_entry (f := .frequency) (.inl rfl) hm hf h
    have htr : t.seenFlag .rate = false := by rw [hts, hr]; rfl
    refine ⟨by rw [blame_of_unpaired (by simp [htr]), htr]; rfl, fun h' => ?_⟩
    obtain ⟨-, hus, hul⟩ := exec_pair_entry (f := .rate) (.inr rfl) htm htr h'
    rw [blame_of_pair (by rw [hus, hts, hf]; rfl) (by rw [hus, htr]; rfl), hul]
    rfl
  · obtain ⟨htm, hts, -⟩ := exec_pair_entry (f := .rate) (.inr rfl) hm hr h
    have htf : t.seenFlag .frequency = false := by rw [hts, hf]; rfl
    have htr : t.seenFlag .rate = true := by rw [hts, hr]; rfl
    refine ⟨by rw [blame_of_unpaired (by simp [htf]), htr]; rfl, fun h' => ?_⟩
    obtain ⟨-, hus, hul⟩ := exec_pair_entry (f := .frequency) (.inl rfl) htm htf h'
    rw [blame_of_pair (by rw [hus, htf]; rfl) (by rw [hus, htr]; rfl), hul]
    rfl

/-- Settles O36: no case but those of `gen` and `clear` writes TABLE, and reading it is a function of TABLE alone. -/
theorem tableIsWrittenByGenAndClearOnly : Obligations.TableIsWrittenByGenAndClearOnly := by
  intro i s t h hgen hclear
  have htable := exec_table h hgen hclear
  exact ⟨htable, fun a => by rw [htable]⟩

/-- Settles O37: a successful `gen` fills TABLE, and a sample is small enough to be read back. -/
theorem tableReadsAsGenWroteIt : Obligations.TableReadsAsGenWroteIt := by
  intro s t hm h ht a
  obtain rfl := exec_gen_streams hm h ht
  rw [arm_period, arm_table, arm_width, read_fill]
  refine ⟨fun ha => ?_, fun ha => ?_⟩
  · rw [if_pos ha, toInt_element _ ha]
  · rw [if_neg (not_lt.mpr ha)]

/-- Settles O8: the word stands in the next slot, and the step runs what it decodes to. -/
theorem fetchedWordRunsNext : Obligations.FetchedWordRunsNext := by
  intro s nbits w i h
  unfold decodeTableWord at h
  cases hdec : decode (tableWord nbits w) with
  | error r => rw [hdec] at h; cases h
  | ok c =>
    rw [hdec] at h
    obtain rfl := Option.some.inj h
    exact step_of_decode rfl rfl rfl hdec

/-- Settles O9, along the cases of the step. -/
theorem stepWithoutACommandHoldsOrResets : Obligations.StepWithoutACommandHoldsOrResets := by
  refine ⟨fun s hnil => ?_, fun s p rest hhost hrst hvalid => ?_, fun s p rest hhost hrst => ?_⟩
  · rcases step_cases s with ⟨-, hstep⟩ | ⟨i, rest, hcons, -⟩
    · exact hstep
    · exact absurd (hnil.symm.trans hcons) nofun
  · rcases step_slot_cases hhost with ⟨hreset, -⟩ | ⟨-, -, hstep⟩ | ⟨-, hcommand⟩
    · exact absurd (hrst.symm.trans hreset) (by decide)
    · exact hstep
    · exact absurd (hvalid.symm.trans hcommand) (by decide)
  · rcases step_slot_cases hhost with ⟨-, hstep⟩ | ⟨hrun, -⟩ | ⟨hrun, -⟩
    · exact hstep
    · exact absurd (hrst.symm.trans hrun) (by decide)
    · exact absurd (hrst.symm.trans hrun) (by decide)

/-- Settles O54: each output is its register by definition, and the codes of the tags are injective. -/
theorem statusOutputsShowTheRegisters : Obligations.StatusOutputsShowTheRegisters := by
  refine ⟨rfl, rfl, fun _ => ⟨rfl, rfl, rfl, rfl, rfl, rfl, rfl, rfl, rfl, rfl, rfl, rfl, rfl, rfl, rfl, rfl, rfl⟩,
    fun s t h => ?_⟩
  obtain ⟨hmode, hseen, hwidth, hperiod, hcount, hindex, hphase, hkind, hfield, hop, hvalue, hother, hfreq, hrate, hlen, hrep,
    hskip⟩ := StatusOutputs.mk.inj h
  exact ⟨modeCode_injective hmode, hseen, hfreq, hrate, hlen, hrep, hskip, widthCode_injective hwidth, hperiod, hcount, hphase,
    hindex, errKindCode_injective hkind, fieldCode_injective hfield, hop, hvalue, hother⟩

end

section
/-!
What `next` delivers (R62, R160), and that no command and no step from a state with the invariant of R43 stops (R63, R216):
only the delivery of a sample can, and there the invariant puts PHASE inside TABLE.
-/

namespace Sys2Proof.Laws

open Sys2Proof.Machine Sys2Proof.Safety

variable {s : State}

/-! ### The sample on the port -/

/-- The signed number of an element, put on the port, is the element sign-extended (R8, R160). -/
theorem sext32_toInt {n : ℕ} (x : BitVec n) : sext32 x.toInt = x.signExtend 32 := rfl

/-- No width is wider than the port (R28, R45). -/
theorem bits_le_port (w : Width) : w.bits ≤ 32 := by cases w <;> decide

/-- `next` finds the element at PHASE and delivers it (R62, R160). -/
theorem deliver_of_element {T : Table} (htable : s.table = some T) (hphase : s.phase.toNat < T.period.toNat) :
    deliver s = .next (s.advance.respondSample ((T.element s.phase.toNat).signExtend 32)) := by
  rw [deliver, htable, read_some hphase, ← sext32_toInt]

/-! ### Completion -/

/-- In MODE STREAM the invariant gives a table that has an element at PHASE (R43 (e), R63). -/
theorem element_at_phase (h : StateInv s) (hm : s.mode = .stream) :
    ∃ T, s.table = some T ∧ s.phase.toNat < T.period.toNat := by
  obtain ⟨-, -, -, -, hstream, -, -⟩ := h
  obtain ⟨harmed, -⟩ := hstream hm
  have hphase := phase_lt_period harmed
  obtain ⟨-, -, -, -, -, -, htable⟩ := harmed
  exact ⟨_, htable, hphase⟩

theorem whenMode_completes {m : Mode} {run : State → Result} (h : s.mode = m → ∃ t, run s = .next t) :
    ∃ t, whenMode m run s = .next t := by
  by_cases hm : s.mode = m
  · rw [whenMode_in hm]
    exact h hm
  · exact ⟨_, whenMode_out hm⟩

theorem exec_completes (i : Instr) (h : StateInv s) : ∃ t, exec i s = .next t := by
  rcases instr_cases i with ⟨f, v, rfl⟩ | rfl | rfl | rfl
  · rw [exec_entryInstr]
    exact whenMode_completes fun _ => ⟨_, rfl⟩
  · rw [exec_gen]
    exact whenMode_completes fun _ => ⟨_, rfl⟩
  · rw [exec_next]
    refine whenMode_completes fun hm => ?_
    obtain ⟨T, htable, hphase⟩ := element_at_phase h hm
    exact ⟨_, deliver_of_element htable hphase⟩
  · exact ⟨_, exec_clear s⟩

theorem execReserved_completes (r : DecodeRefusal) (s : State) : ∃ t, execReserved r s = .next t := by
  obtain ⟨op, v⟩ := r
  rw [execReserved_eq]
  exact whenMode_completes fun _ => ⟨_, rfl⟩

end Sys2Proof.Laws
end

section

open Sys2Proof.Machine Sys2Proof.Safety Sys2Proof.Laws

/-- Settles O34: a sample fits its element, and an element is no wider than the port. -/
theorem portSampleIsTheSineSample : Obligations.PortSampleIsTheSineSample := by
  intro T i hi
  have helement : (T.element i).toInt = sineSample T.width T.period.toNat i := toInt_element T.width hi
  refine ⟨helement, ?_⟩
  rw [BitVec.toInt_signExtend_of_le (bits_le_port T.width), helement]

/-- Settles O40, along the cases of the step: taking the slot keeps the invariant, and with it every command completes. -/
theorem noStepFromAnInvariantStateStops : Obligations.NoStepFromAnInvariantStateStops := by
  intro s h
  rcases step_cases s with
    ⟨-, hidle⟩ | ⟨p, rest, -, ⟨-, hreset⟩ | ⟨-, -, hidle⟩ | ⟨-, -, ⟨c, -, hexec⟩ | ⟨r, -, hreserved⟩⟩⟩
  · exact ⟨_, hidle⟩
  · exact ⟨_, hreset⟩
  · exact ⟨_, hidle⟩
  · rw [hexec]
    exact exec_completes c (stateInv_kept.host rest s h)
  · rw [hreserved]
    exact execReserved_completes r _

/-- Settles O33: in MODE STREAM `next` delivers, and the mode it leaves before the last sample is the one it found. -/
theorem nextDeliversTheElementAtPhase : Obligations.NextDeliversTheElementAtPhase := by
  intro s T hm htable hphase
  rw [exec_next, whenMode_in hm, deliver_of_element htable hphase, ← hm]
  rfl

end

section
/-!
The decoder and the encoder are inverse to each other (R80 to R87): a word decodes to a command exactly when it has the
command's opcode and, in format E, its operand.
-/

namespace Sys2Proof.Laws

/-- A word with the opcode of a command, and with its operand where the command uses one, decodes to the command (R81, R82). -/
theorem decode_of_parts {w : CommandWord} {i : Instr} (hop : opcodeOf w = i.opcode)
    (hoperand : i.usesOperand = true → operandOf w = i.operand) : decode w = .ok i := by
  unfold decode
  rw [hop]
  cases i with
  | gen => rfl
  | next => rfl
  | clear => rfl
  | _ v => rw [hoperand rfl]; rfl

/-- A format-E command the decoder answers holds the operand bits of the word (R81, R83). -/
theorem decode_operand {w : CommandWord} {i : Instr} (h : decode w = .ok i) (huses : i.usesOperand = true) :
    operandOf w = i.operand := by
  unfold decode at h
  repeat' split at h
  all_goals cases h
  all_goals first
    | rfl
    | cases huses

/-- No operand bit is lost on the way through the encoder and the decoder (R87). -/
theorem decode_encode (i : Instr) : decode (encode i) = .ok i :=
  decode_of_parts (opcodeOf_encode i) fun _ => operandOf_encode i

/-- The opcodes of the nine commands are assigned (R84). -/
theorem isReserved_opcode (i : Instr) : isReserved i.opcode = false := by cases i <;> rfl

/-- A word with a reserved opcode is rejected (R85). -/
theorem decode_reserved {w : CommandWord} (h : isReserved (opcodeOf w) = true) :
    decode w = .error (.reserved (opcodeOf w) (operandOf w)) := by
  cases hdec : decode w with
  | ok i => rw [decode_opcode hdec, isReserved_opcode] at h; cases h
  | error r => rw [decode_error hdec]

/-- The decoder answers a command exactly on the words whose opcode is assigned (R87). -/
theorem decode_ok_iff (w : CommandWord) : (∃ i, decode w = .ok i) ↔ isReserved (opcodeOf w) = false := by
  refine ⟨fun ⟨i, hdec⟩ => by rw [decode_opcode hdec, isReserved_opcode], fun h => ?_⟩
  cases hdec : decode w with
  | ok i => exact ⟨i, rfl⟩
  | error r => exact absurd (h.symm.trans (isReserved_of_decode_error hdec)) (by decide)

/-- Nine of the 256 opcodes are assigned (R84, R85). -/
theorem reserved_count : ((List.range 256).filter (fun n => isReserved (BitVec.ofNat 8 n))).length = 247 := by
  decide +kernel

end Sys2Proof.Laws
end

section
/-!
The front end on each kind of literal (R89, R90).
-/

namespace Sys2Proof.Laws

open Sys2Proof.Machine Sys2Proof.Safety

variable {f : ConfigField}

/-- The entry of a numeric field is the entry command with the operand of its literal (R89). -/
theorem frontEnd_numeric (hf : f ≠ .type) (l : Literal) :
    frontEnd { name := .known f, value := l } = (numericOperand f l).map (fun v => encode (entryInstr f v)) := by
  cases f with
  | type => exact absurd rfl hf
  | _ => rfl

/-- A literal in `0 .. 2^32 - 1` is passed through as it stands (R89). -/
theorem numericOperand_of_fits (f : ConfigField) {n : ℕ} (hn : n < 2 ^ 32) :
    numericOperand f (.integer n) = .ok (BitVec.ofNat 32 n) := by
  simp only [numericOperand]
  rw [if_neg (by omega), if_pos (by exact_mod_cast hn), BitVec.ofInt_natCast]

theorem numericOperand_of_negative (f : ConfigField) {n : ℤ} (hn : n < 0) :
    numericOperand f (.integer n) = .error (negativeKind f) := if_pos hn

theorem numericOperand_of_large (f : ConfigField) {n : ℤ} (hn : 2 ^ 32 ≤ n) :
    numericOperand f (.integer n) = .error .invalidLiteral := by
  simp only [numericOperand]
  rw [if_neg (by omega), if_neg (by omega)]

/-- The entry `f: n` of a numeric field becomes the entry command with the operand `n` (R89). -/
theorem frontEnd_numericEntry (hf : f ≠ .type) {n : ℕ} (hn : n < 2 ^ 32) :
    frontEnd (numericEntry f n) = .ok (encode (entryInstr f (BitVec.ofNat 32 n))) := by
  rw [numericEntry, frontEnd_numeric hf, numericOperand_of_fits f hn]
  rfl

/-- WIDTH as an operand is the number of bits of a sample (R28, R90). -/
theorem widthCode_operand (w : Width) : w.code.setWidth 32 = BitVec.ofNat 32 w.bits := by cases w <;> rfl

/-- The entry `type: i8`, `i16` or `i32` becomes the entry command with the operand 8, 16 or 32 (R90). -/
theorem frontEnd_typeEntry (w : Width) :
    frontEnd (typeEntry w) = .ok (encode (entryInstr .type (BitVec.ofNat 32 w.bits))) := by
  rw [← widthCode_operand]
  rfl

end Sys2Proof.Laws
end

section

open Sys2Proof Sys2Proof.Machine Sys2Proof.Safety Sys2Proof.Laws

/-- Settles O3: the encoding has the command's opcode and operand, which are all the decoder reads. -/
theorem decodingInvertsEncoding : Obligations.DecodingInvertsEncoding :=
  fun i _ => decode_encode i

/-- Settles O4: the word is its two parts, and both are the command's. -/
theorem formatEWordIsTheEncodingOfItsCommand : Obligations.FormatEWordIsTheEncodingOfItsCommand := by
  intro w i hdec
  refine ⟨decode_opcode hdec, fun huses => ?_⟩
  calc encode i
      = commandWord (opcodeOf w) (operandOf w) := by rw [encode, decode_opcode hdec, decode_operand hdec huses]
    _ = w := commandWord_parts w

/-- Settles O6: the decoder rejects reserved opcodes only, and rejects all of them. -/
theorem reservedOpcodesAreTheUnassignedOnes : Obligations.ReservedOpcodesAreTheUnassignedOnes :=
  ⟨fun _ => ⟨isReserved_of_decode_error, decode_reserved⟩, decode_ok_iff, reserved_count⟩

/-- Settles O56, one clause after the other, through the operand of each kind of literal. -/
theorem frontEndKeepsItsContract : Obligations.FrontEndKeepsItsContract := by
  refine ⟨fun f n hf hn => ⟨_, frontEnd_numericEntry hf hn, decode_encode _⟩, fun f n hf hn => ?_, fun f n hf hn => ?_,
    fun w => ⟨_, frontEnd_typeEntry w, decode_encode _⟩, fun f => ?_, fun l => ⟨_, rfl, ?_⟩⟩
  · rw [frontEnd_numeric hf, numericOperand_of_large f hn]
    rfl
  · rw [frontEnd_numeric hf, numericOperand_of_negative f hn]
    rfl
  · cases f <;> rfl
  · rw [opcodeOf_commandWord]
    rfl

/-- Settles O2: the nine assigned words are the encodings of their commands, and the tenth has a reserved opcode. -/
theorem listedWordsDecodeToTheirCommands : Obligations.ListedWordsDecodeToTheirCommands :=
  ⟨decode_encode (.frequency 440), decode_encode (.rate 100), decode_encode (.len 5), decode_encode (.repeats 4294967295),
    decode_encode (.skip 11), decode_encode (.type 16), decode_encode .gen, decode_encode .next, decode_encode .clear,
    decode_reserved rfl⟩

/-- Settles O5: a command that uses no operand is decoded by its opcode alone. -/
theorem formatZIgnoresTheOperandBits : Obligations.FormatZIgnoresTheOperandBits := by
  intro v
  exact ⟨decode_of_parts (opcodeOf_commandWord _ v) nofun, decode_of_parts (opcodeOf_commandWord _ v) nofun,
    decode_of_parts (opcodeOf_commandWord _ v) nofun⟩

/-- Settles O57: neither literal has an operand of the other kind. -/
theorem frontEndRejectsMisplacedLiterals : Obligations.FrontEndRejectsMisplacedLiterals := by
  refine ⟨fun f w hf => ?_, fun n => rfl⟩
  rw [frontEnd_numeric hf]
  rfl

end

section
/-!
The commands of an invocation, one after the other (R91): `clear` and the entries leave the block in MODE CONFIG or ERROR,
`gen` arms the stream or leaves MODE ERROR, and an armed stream delivers COUNT cyclic samples.
-/

namespace Sys2Proof.Laws

open Sys2Proof.Machine Sys2Proof.Safety

variable {s t : State}

/-! ### One word (R5, R87) -/

/-- The encoding of a command, presented, is the command. -/
theorem issue_encode (i : Instr) (s : State) : issue (encode i) s = exec i s := by
  rw [issue, step_present, decode_encode]

/-- A presented word with a reserved opcode takes the effect of R179. -/
theorem issue_reserved {w : CommandWord} (h : isReserved (opcodeOf w) = true) (s : State) :
    issue w s = execReserved (.reserved (opcodeOf w) (operandOf w)) s := by
  rw [issue, step_present, decode_reserved h]

theorem issueAll_nil (s : State) : issueAll [] s = .next s := rfl

/-- Words that each complete and keep a property do so one after the other. -/
theorem issueAll_completes {I : State → Prop} {ws : List CommandWord}
    (hword : ∀ w ∈ ws, ∀ s, I s → ∃ t, issue w s = .next t ∧ I t) (hs : I s) : ∃ t, issueAll ws s = .next t ∧ I t := by
  induction ws generalizing s with
  | nil => exact ⟨s, rfl, hs⟩
  | cons w ws ih =>
    obtain ⟨u, hu, hIu⟩ := hword w List.mem_cons_self s hs
    rw [issueAll_cons hu]
    exact ih (fun v hv => hword v (List.mem_cons_of_mem w hv)) hIu

/-- The words of an invocation up to `gen`, on the block after reset: `clear` changes nothing there. -/
theorem issueAll_invocation {ws : List CommandWord} {c : State} (hws : issueAll ws State.reset = .next c)
    (hgen : exec .gen c = .next t) : issueAll (encode .clear :: ws ++ [encode .gen]) State.reset = .next t := by
  have hclear : issue (encode .clear) State.reset = .next State.reset := issue_clear State.reset
  rw [List.cons_append, issueAll_cons hclear, issueAll_append hws, issueAll_cons ((issue_encode .gen c).trans hgen)]
  rfl

/-! ### The entries (R89, R100) -/

/-- Where the block stands between `clear` and `gen`: the invariant of R43, in MODE CONFIG or, after a bad entry, ERROR. -/
def Configuring (s : State) : Prop := StateInv s ∧ (s.mode = .config ∨ s.mode = .error)

theorem configuring_reset : Configuring State.reset := ⟨stateInv_reset, .inl rfl⟩

/-- Every word the front end makes of an entry completes, and leaves the block configuring. -/
theorem issue_entry_configuring {e : SourceEntry} {w : CommandWord} (hw : frontEnd e = .ok w) (h : Configuring s) :
    ∃ t, issue w s = .next t ∧ Configuring t := by
  obtain ⟨hinv, hmode⟩ := h
  rcases frontEnd_ok hw with ⟨f, v, rfl⟩ | ⟨v, rfl⟩
  · obtain ⟨t, ht⟩ := exec_completes (entryInstr f v) hinv
    refine ⟨t, (issue_encode _ s).trans ht, stateInv_kept.exec hinv ht, ?_⟩
    rw [exec_entryInstr] at ht
    rcases whenMode_next ht with ⟨-, hentry⟩ | ⟨-, rfl⟩
    · cases hentry
      rcases entry_mode f (entryInstr f v).opcode v s with ⟨hkeep, -⟩ | ⟨herror, -⟩
      · rwa [hkeep]
      · exact .inr herror
    · exact hmode
  · have hop : isReserved (opcodeOf (commandWord 0x00 v)) = true := by rw [opcodeOf_commandWord]; rfl
    obtain ⟨t, ht⟩ := execReserved_completes (.reserved (opcodeOf (commandWord 0x00 v)) (operandOf (commandWord 0x00 v))) s
    refine ⟨t, (issue_reserved hop s).trans ht, stateInv_kept.execReserved hop hinv ht, ?_⟩
    rw [execReserved_eq] at ht
    rcases whenMode_next ht with ⟨-, hraise⟩ | ⟨-, rfl⟩
    · cases hraise
      exact .inr rfl
    · exact hmode

/-- The words of an accepted list of entries each come from an entry. -/
theorem frontEnd_of_mem {es : List SourceEntry} {ws : List CommandWord} (hws : es.mapM frontEnd = .ok ws) {w : CommandWord}
    (hw : w ∈ ws) : ∃ e, frontEnd e = .ok w := by
  induction es generalizing ws with
  | nil => cases hws; cases hw
  | cons e es ih =>
    rw [List.mapM_cons] at hws
    cases he : frontEnd e with
    | error k => rw [he] at hws; cases hws
    | ok v =>
      cases hes : es.mapM frontEnd with
      | error k => rw [he, hes] at hws; cases hws
      | ok vs =>
        rw [he, hes] at hws
        cases hws
        rcases List.mem_cons.mp hw with rfl | hmem
        · exact ⟨e, he⟩
        · exact ih hes hmem

/-- All entries of an invocation, after reset. -/
theorem issueAll_entries {es : List SourceEntry} {ws : List CommandWord} (hws : es.mapM frontEnd = .ok ws) :
    ∃ c, issueAll ws State.reset = .next c ∧ Configuring c := by
  refine issueAll_completes (fun w hw s hs => ?_) configuring_reset
  obtain ⟨e, he⟩ := frontEnd_of_mem hws hw
  exact issue_entry_configuring he hs

/-! ### `gen` (R120, R132) -/

/-- After the entries, `gen` completes: with an error, or with a stream of which nothing has been drawn. -/
theorem gen_of_configuring (h : Configuring s) :
    ∃ t, exec .gen s = .next t ∧ StateInv t ∧ (t.mode = .error ∨ (t.mode = .stream ∧ t.index = 0)) := by
  obtain ⟨hinv, hmode⟩ := h
  obtain ⟨t, ht⟩ := exec_completes .gen hinv
  refine ⟨t, ht, stateInv_kept.exec hinv ht, ?_⟩
  rcases hmode with hconfig | herror
  · rw [exec_gen, whenMode_in hconfig] at ht
    cases ht
    rcases generate_raises_or_arms true 0x10 s with ⟨k, f, v, o, -, hg⟩ | ⟨-, -, hg⟩ <;> rw [hg]
    · exact .inl rfl
    · exact .inr ⟨rfl, rfl⟩
  · rw [exec_gen, whenMode_out (by rw [herror]; decide)] at ht
    cases ht
    exact .inl herror

/-- On an accepted configuration no check of `gen` fails (R132). -/
theorem generate_of_accepts (op : Opcode) (h : genAccepts s) : generate true op s = s.arm s.periodLength := by
  obtain ⟨hfreq, hrate, hlen, hrep, hperiod⟩ := h
  have hpos : ∀ {x : Word}, 1 ≤ x.toNat → x ≠ 0 := by
    rintro x hx rfl
    cases hx
  have hz : s.firstZeroField = none := by
    have hlen' : ¬ (s.seenFlag .len = true ∧ s.len = 0) := by
      rintro ⟨hseen, hzero⟩
      rcases hlen with hunseen | hlen
      · exact Bool.false_ne_true (hunseen.symm.trans hseen)
      · exact hpos hlen hzero
    rw [State.firstZeroField, if_neg (hpos hfreq), if_neg (hpos hrate), if_neg hlen', if_neg (hpos hrep)]
  have hP : 3 ≤ s.periodLength.toNat := by
    rw [periodLength_toNat]
    exact (Nat.le_div_iff_mul_le hfreq).mpr hperiod
  rcases generate_cases true op s with ⟨hb, -⟩ | ⟨f, hf, -⟩ | ⟨-, hshort, -⟩ | ⟨-, htwo, -⟩ | ⟨-, -, harm⟩
  · cases hb
  · cases hz.symm.trans hf
  · omega
  · omega
  · exact harm

/-! ### The samples (R160, R162) -/

/-- Cyclic samples: the first, then those from the next phase on. -/
theorem cyclicSamples_succ (w : Width) (P k n : ℕ) :
    cyclicSamples w P k (n + 1) = BitVec.ofInt 32 (sineSample w P (k % P)) :: cyclicSamples w P (k + 1) n := by
  simp only [cyclicSamples, List.range_succ_eq_map, List.map_cons, List.map_map, Nat.add_zero]
  congr 2
  funext j
  simp only [Function.comp_apply, Nat.succ_eq_add_one, Nat.add_assoc, Nat.add_comm 1 j]

/-- In a stream with the invariant `next` delivers the sample of the index `(SKIP + INDEX) mod PERIOD` (R62, R160). -/
theorem exec_next_of_armed (harmed : generatorArmed s) (hm : s.mode = .stream) :
    exec .next s = .next (s.advance.respondSample
      (BitVec.ofInt 32 (sineSample s.width s.period.toNat ((s.skip.toNat + s.index.toNat) % s.period.toNat)))) := by
  have hlt := phase_lt_period harmed
  obtain ⟨-, -, hphase, -, -, -, htable⟩ := harmed
  have helement : (Table.element { width := s.width, period := s.period } s.phase.toNat).toInt =
      sineSample s.width s.period.toNat s.phase.toNat := toInt_element s.width hlt
  rw [exec_next, whenMode_in hm, deliver_of_element htable hlt, ← hphase, ← sext32_toInt, helement]
  rfl

/-- What R43 (e) says of MODE STREAM. -/
theorem armed_of_stream (h : StateInv s) (hm : s.mode = .stream) :
    generatorArmed s ∧ s.index.toNat < s.count.toNat := by
  obtain ⟨-, -, -, -, hstream, -, -⟩ := h
  exact hstream hm

/-- What R43 (f) says of MODE DONE. -/
theorem drawn_of_done (h : StateInv s) (hm : s.mode = .done) : s.index.toNat = s.count.toNat := by
  obtain ⟨-, -, -, -, -, hdone, -⟩ := h
  exact (hdone hm).2

/-- The mode in which a run of samples goes on or is over. -/
theorem advance_streams_or_done (hm : s.mode = .stream) : s.advance.mode = .stream ∨ s.advance.mode = .done := by
  rw [advance_mode, hm]
  split
  · exact .inr rfl
  · exact .inl rfl

/-- What is left of a run: `next` as often as samples are missing delivers them in order and ends in MODE DONE (R162, R164). -/
theorem collectSamples_next {n : ℕ} (h : StateInv s) (hmode : s.mode = .stream ∨ s.mode = .done)
    (hn : s.index.toNat + n = s.count.toNat) :
    ∃ u, collectSamples (List.replicate n (encode .next)) s =
        some (cyclicSamples s.width s.period.toNat (s.skip.toNat + s.index.toNat) n, u) ∧
      u.mode = .done ∧ u.width = s.width ∧ u.count = s.count := by
  induction n generalizing s with
  | zero =>
    rcases hmode with hm | hm
    · obtain ⟨-, hlt⟩ := armed_of_stream h hm
      omega
    · exact ⟨s, rfl, hm, rfl, rfl⟩
  | succ n ih =>
    rcases hmode with hm | hm
    · obtain ⟨harmed, hlt⟩ := armed_of_stream h hm
      have hnext := exec_next_of_armed harmed hm
      have hindex := advance_index_toNat hlt
      obtain ⟨u, hu, hend⟩ := ih (stateInv_kept.exec h hnext) (advance_streams_or_done hm)
        (by rw [respondSample_index, hindex, respondSample_count, advance_count]; omega)
      refine ⟨u, ?_, hend⟩
      rw [List.replicate_succ, collectSamples_cons ((issue_encode .next s).trans hnext), hu, respondSample_index, hindex,
        ← Nat.add_assoc, cyclicSamples_succ]
      rfl
    · have hlast := drawn_of_done h hm
      omega

/-- The samples of a stream of which nothing has been drawn (R91, R162). -/
theorem collectSamples_drawCommands (h : StateInv s) (hm : s.mode = .stream) (hindex : s.index = 0) :
    ∃ u, collectSamples s.drawCommands s = some (cyclicSamples s.width s.period.toNat s.skip.toNat s.count.toNat, u) ∧
      u.mode = .done ∧ u.width = s.width ∧ u.count = s.count := by
  have hzero : s.index.toNat = 0 := by rw [hindex]; rfl
  have hrun := collectSamples_next (n := s.count.toNat) h (.inl hm) (by rw [hzero, Nat.zero_add])
  rw [hzero, Nat.add_zero] at hrun
  rwa [State.drawCommands, if_pos hm]

/-! ### The result (R165) -/

theorem resultOf_done (l : List (BitVec 32)) (hm : s.mode = .done) : resultOf l s = .output s.width s.count l := by
  rw [resultOf, hm]

theorem resultOf_error (l : List (BitVec 32)) (hm : s.mode = .error) :
    resultOf l s = .failed s.errKind s.errField s.errValue s.errOther := by
  rw [resultOf, hm]

/-- The result of an invocation whose `gen` raises: the error record (R91). -/
theorem invoke_of_error {es : List SourceEntry} {ws : List CommandWord} {c : State} (hwords : es.mapM frontEnd = .ok ws)
    (hentries : issueAll ws State.reset = .next c) (hgen : exec .gen c = .next t) (hm : t.mode = .error) (s : State) :
    invoke es s = .failed t.errKind t.errField t.errValue t.errOther := by
  have hdraw : collectSamples t.drawCommands t = some ([], t) := by
    rw [State.drawCommands, if_neg (by rw [hm]; decide)]
    rfl
  rw [invoke_eq_reset, invoke_of_words hwords (issueAll_invocation hentries hgen) hdraw, resultOf_error [] hm]

/-- The result of an invocation whose `gen` arms the stream: COUNT cyclic samples from SKIP on (R91, R162). -/
theorem invoke_of_stream {es : List SourceEntry} {ws : List CommandWord} {c : State} (hwords : es.mapM frontEnd = .ok ws)
    (hentries : issueAll ws State.reset = .next c) (hgen : exec .gen c = .next t) (h : StateInv t) (hm : t.mode = .stream)
    (hindex : t.index = 0) (s : State) :
    invoke es s = .output t.width t.count (cyclicSamples t.width t.period.toNat t.skip.toNat t.count.toNat) := by
  obtain ⟨u, hdraw, hdone, hwidth, hcount⟩ := collectSamples_drawCommands h hm hindex
  rw [invoke_eq_reset, invoke_of_words hwords (issueAll_invocation hentries hgen) hdraw, resultOf_done _ hdone, hwidth, hcount]

/-- An accepted configuration after the entries: the invocation delivers COUNT cyclic samples from SKIP on (R91, R128). -/
theorem invoke_of_accepts {es : List SourceEntry} {ws : List CommandWord} {c : State} (hwords : es.mapM frontEnd = .ok ws)
    (hentries : issueAll ws State.reset = .next c) (hm : c.mode = .config) (haccepts : genAccepts c) (s : State) :
    invoke es s = .output c.width (c.outputCount c.periodLength)
      (cyclicSamples c.width c.periodLength.toNat c.skip.toNat (c.outputCount c.periodLength).toNat) := by
  have hgen : exec .gen c = .next (c.arm c.periodLength) := by
    rw [exec_gen, whenMode_in hm, generate_of_accepts 0x10 haccepts]
  obtain ⟨c', hentries', hinv, -⟩ := issueAll_entries hwords
  obtain rfl := Host.Outcome.next.inj (hentries'.symm.trans hentries)
  exact invoke_of_stream hwords hentries hgen (stateInv_kept.exec hinv hgen) rfl rfl s

/-- Entries the front end fails end the invocation at once (R89; log entry 13). -/
theorem invoke_of_rejected {es : List SourceEntry} {k : ErrKind} (hfail : es.mapM frontEnd = .error k) (s : State) :
    invoke es s = .rejected k := by
  have hwords : invocation es = .error k := by rw [invocation, hfail]; rfl
  rw [invoke, hwords]

end Sys2Proof.Laws
end

section
/-!
The run of an invocation with one entry of each field but `len`, none of which raises (R91, R100).
-/

namespace Sys2Proof.Laws

open Sys2Proof.Machine Sys2Proof.Safety

variable {s : State}

@[simp] theorem excludedBy_defineField (f g : ConfigField) (v : Operand) (s : State) :
    (defineField f v s).excludedBy g =
      if g = .len ∧ (s.seenFlag .repeats || decide (f = .repeats)) = true then some .repeats
      else if g = .repeats ∧ (s.seenFlag .len || decide (f = .len)) = true then some .len
      else none := by
  rw [State.excludedBy, seenFlag_defineField, seenFlag_defineField]

@[simp] theorem excludedBy_reset (g : ConfigField) : State.reset.excludedBy g = none := by simp [State.excludedBy]

@[simp] theorem operandWidth_bits (w : Width) : operandWidth (BitVec.ofNat 32 w.bits) = some w := by cases w <;> rfl

/-- An entry that no check of R100 stops defines its field. -/
theorem issue_entry_defines {f : ConfigField} {v : Operand} (hm : s.mode = .config) (hseen : s.seenFlag f = false)
    (hex : s.excludedBy f = none) (hwidth : f = .type → operandWidth v ≠ none) :
    issue (encode (entryInstr f v)) s = .next (defineField f v s) := by
  rw [issue_encode, exec_entryInstr, whenMode_in hm]
  rcases entry_cases f (entryInstr f v).opcode v s with ⟨hset, -⟩ | ⟨-, g, hg, -⟩ | ⟨-, -, htype, hnone, -⟩ | ⟨-, -, -, he⟩
  · cases hset.symm.trans hseen
  · cases hg.symm.trans hex
  · exact absurd hnone (hwidth htype)
  · rw [he]
    rfl

/-- The same, with the words after it. -/
theorem issueAll_entry_defines {f : ConfigField} {v : Operand} {ws : List CommandWord} (hm : s.mode = .config)
    (hseen : s.seenFlag f = false) (hex : s.excludedBy f = none) (hwidth : f = .type → operandWidth v ≠ none) :
    issueAll (encode (entryInstr f v) :: ws) s = issueAll ws (defineField f v s) :=
  issueAll_cons (issue_entry_defines hm hseen hex hwidth)

/-- The block after reset with these five fields defined in this order. -/
def configured (f r n k : Operand) (w : Width) : State :=
  defineField .type (BitVec.ofNat 32 w.bits) (defineField .skip k (defineField .repeats n
    (defineField .rate r (defineField .frequency f State.reset))))

/-- The five entry commands. -/
def configureWords (f r n k : Operand) (w : Width) : List CommandWord :=
  [encode (entryInstr .frequency f), encode (entryInstr .rate r), encode (entryInstr .repeats n), encode (entryInstr .skip k),
    encode (entryInstr .type (BitVec.ofNat 32 w.bits))]

theorem issueAll_configureWords (f r n k : Operand) (w : Width) :
    issueAll (configureWords f r n k w) State.reset = .next (configured f r n k w) := by
  have hreset : State.reset.mode = .config := rfl
  simp [configureWords, configured, issueAll_entry_defines, hreset, issueAll_nil]

section Fields

variable (f r n k : Operand) (w : Width)

@[simp] theorem configured_mode : (configured f r n k w).mode = .config := by simp [configured]; rfl

@[simp] theorem configured_frequency : (configured f r n k w).frequency = f := by simp [configured]

@[simp] theorem configured_rate : (configured f r n k w).rate = r := by simp [configured]

@[simp] theorem configured_repeats : (configured f r n k w).repeats = n := by simp [configured]

@[simp] theorem configured_skip : (configured f r n k w).skip = k := by simp [configured]

@[simp] theorem configured_width : (configured f r n k w).width = w := by simp [configured]

@[simp] theorem configured_seenFlag_len : (configured f r n k w).seenFlag .len = false := by simp [configured]

end Fields

/-- The front end on the five entries, where every number fits an operand (R89). -/
theorem mapM_frontEnd_configureWords {f r n k : ℕ} (hf : f < 2 ^ 32) (hr : r < 2 ^ 32) (hn : n < 2 ^ 32) (hk : k < 2 ^ 32)
    (w : Width) :
    [numericEntry .frequency f, numericEntry .rate r, numericEntry .repeats n, numericEntry .skip k, typeEntry w].mapM frontEnd =
      .ok (configureWords (BitVec.ofNat 32 f) (BitVec.ofNat 32 r) (BitVec.ofNat 32 n) (BitVec.ofNat 32 k) w) := by
  simp only [List.mapM_cons, List.mapM_nil]
  rw [frontEnd_numericEntry (f := .frequency) nofun hf, frontEnd_numericEntry (f := .rate) nofun hr,
    frontEnd_numericEntry (f := .repeats) nofun hn, frontEnd_numericEntry (f := .skip) nofun hk, frontEnd_typeEntry]
  rfl

end Sys2Proof.Laws
end

section

open Sys2Proof Sys2Proof.Machine Sys2Proof.Safety Sys2Proof.Laws

/-- Settles O50: the five entries configure the block, `gen` accepts the configuration, and COUNT is the product of the two
numbers because it fits. -/
theorem invocationDeliversTheCyclicSine : Obligations.InvocationDeliversTheCyclicSine := by
  intro s f r n k w hf hperiod hr hn hn32 hk
  have toNat_operand : ∀ {x : ℕ}, x < 2 ^ 32 → (BitVec.ofNat 32 x).toNat = x := fun hx => by
    rw [BitVec.toNat_ofNat, Nat.mod_eq_of_lt hx]
  set c := configured (BitVec.ofNat 32 f) (BitVec.ofNat 32 r) (BitVec.ofNat 32 n) (BitVec.ofNat 32 k) w with hc
  have hf32 : f < 2 ^ 32 := by omega
  have haccepts : genAccepts c := by
    simp only [genAccepts, hc, configured_frequency, configured_rate, configured_repeats, configured_seenFlag_len,
      toNat_operand hf32, toNat_operand hr, toNat_operand hn32]
    exact ⟨hf, by omega, .inl trivial, hn, hperiod⟩
  have hlength : c.periodLength.toNat = r / f := by
    rw [periodLength_toNat, hc, configured_rate, configured_frequency, toNat_operand hr, toNat_operand hf32]
  have hcount : (c.outputCount c.periodLength).toNat = r / f * n := by
    rw [outputCount_toNat, hlength, hc, configured_seenFlag_len, configured_repeats, toNat_operand hn32]
    rfl
  have hskip : c.skip.toNat = k := by rw [hc, configured_skip, toNat_operand hk]
  rw [invoke_of_accepts (mapM_frontEnd_configureWords hf32 hr hn32 hk w) (issueAll_configureWords ..) (configured_mode ..)
    haccepts, ← hc, hlength, hskip, hcount, ← hcount, BitVec.ofNat_toNat, BitVec.setWidth_eq, hc, configured_width]

/-- Settles O53: the front end fails the entries, or the block completes them and `gen`, which raises or arms a stream that is
drawn to its end. -/
theorem everyInvocationFinishes : Obligations.EveryInvocationFinishes := by
  intro es s
  cases hwords : es.mapM frontEnd with
  | error k =>
    rw [invoke_of_rejected hwords]
    nofun
  | ok ws =>
    obtain ⟨c, hentries, hc⟩ := issueAll_entries hwords
    obtain ⟨t, hgen, hinv, herror | ⟨hstream, hindex⟩⟩ := gen_of_configuring hc
    · rw [invoke_of_error hwords hentries hgen herror]
      nofun
    · rw [invoke_of_stream hwords hentries hgen hinv hstream hindex]
      nofun

end

section
/-!
The entry commands that raise nothing: when R100 lets an entry through, what it then writes, and how two of them meet (R107).
-/

namespace Sys2Proof.Laws

open Sys2Proof.Machine Sys2Proof.Safety

variable {f g : ConfigField} {v w : Operand} {s t : State}

/-! ### The operand of `type` (R106) -/

theorem operandWidth_eq_some {k : Width} (h : (v = 8 ∧ k = .w8) ∨ (v = 16 ∧ k = .w16) ∨ (v = 32 ∧ k = .w32)) :
    operandWidth v = some k := by
  rcases h with ⟨rfl, rfl⟩ | ⟨rfl, rfl⟩ | ⟨rfl, rfl⟩ <;> rfl

theorem operandWidth_eq_none (h8 : v ≠ 8) (h16 : v ≠ 16) (h32 : v ≠ 32) : operandWidth v = none := by
  rw [operandWidth, if_neg h8, if_neg h16, if_neg h32]

/-! ### The checks of R100 -/

/-- `len` and `repeats`, in either order: the fields whose entries exclude each other (R100). -/
def FieldsConflict (f g : ConfigField) : Prop := (f = .len ∧ g = .repeats) ∨ (f = .repeats ∧ g = .len)

theorem fieldsConflict_comm : FieldsConflict f g ↔ FieldsConflict g f := by
  unfold FieldsConflict
  tauto

theorem excludedBy_eq_none_iff :
    s.excludedBy f = none ↔ ∀ g, FieldsConflict f g → s.seenFlag g = false := by
  constructor
  · rintro hex g (⟨hf, rfl⟩ | ⟨hf, rfl⟩)
    · exact (excludedBy_none hex).1 hf
    · exact (excludedBy_none hex).2 hf
  · intro hfree
    cases hex : s.excludedBy f with
    | none => rfl
    | some g =>
      rcases excludedBy_some hex with ⟨hf, -, hseen⟩ | ⟨hf, -, hseen⟩
      · cases hseen.symm.trans (hfree .repeats (.inl ⟨hf, rfl⟩))
      · cases hseen.symm.trans (hfree .len (.inr ⟨hf, rfl⟩))

/-- In this state the entry `f: v` executes and passes the three checks of R100. -/
structure EntryAccepted (f : ConfigField) (v : Operand) (s : State) : Prop where
  mode : s.mode = .config
  unseen : s.seenFlag f = false
  free : ∀ g, FieldsConflict f g → s.seenFlag g = false
  legal : f = .type → operandWidth v ≠ none

theorem exec_entry_in_config (hm : s.mode = .config) :
    exec (entryInstr f v) s = .next (entry f (entryInstr f v).opcode v s) := by
  rw [exec_entryInstr, whenMode_in hm]

/-- An accepted entry defines its field. -/
theorem exec_entry_of_accepted (h : EntryAccepted f v s) : exec (entryInstr f v) s = .next (defineField f v s) := by
  rw [← issue_encode]
  exact issue_entry_defines h.mode h.unseen (excludedBy_eq_none_iff.mpr h.free) h.legal

/-- An entry that leaves MODE CONFIG as it is was accepted: every `raise` goes to ERROR. -/
theorem entryAccepted_of_exec (hm : s.mode = .config) (h : exec (entryInstr f v) s = .next t) (ht : t.mode = .config) :
    EntryAccepted f v s ∧ t = defineField f v s := by
  rw [exec_entry_in_config hm] at h
  obtain rfl := Host.Outcome.next.inj h
  rcases entry_cases f (entryInstr f v).opcode v s with ⟨-, he⟩ | ⟨-, g, -, he⟩ | ⟨-, -, -, -, he⟩ | ⟨hseen, hex, hwidth, he⟩
  · rw [he] at ht; cases ht
  · rw [he] at ht; cases ht
  · rw [he] at ht; cases ht
  · exact ⟨⟨hm, hseen, excludedBy_eq_none_iff.mp hex, hwidth⟩, he⟩

/-- Defining `f` takes from the accepted entries those of `f` and of the field in conflict with it, and no others. -/
theorem entryAccepted_defineField :
    EntryAccepted g w (defineField f v s) ↔ EntryAccepted g w s ∧ f ≠ g ∧ ¬ FieldsConflict f g := by
  constructor
  · rintro ⟨hmode, hunseen, hfree, hlegal⟩
    simp only [defineField_mode, seenFlag_defineField, Bool.or_eq_false_iff, decide_eq_false_iff_not] at hmode hunseen hfree
    exact ⟨⟨hmode, hunseen.1, fun k hk => (hfree k hk).1, hlegal⟩, hunseen.2,
      fun hc => (hfree f (fieldsConflict_comm.mp hc)).2 rfl⟩
  · rintro ⟨⟨hmode, hunseen, hfree, hlegal⟩, hne, hconf⟩
    refine ⟨by rw [defineField_mode, hmode], by simp [hunseen, hne], fun k hk => ?_, hlegal⟩
    have hfk : f ≠ k := by
      rintro rfl
      exact hconf (fieldsConflict_comm.mp hk)
    simp [hfree k hk, hfk]

/-! ### Two entries (R107) -/

theorem writeReg_comm (hne : f ≠ g) (v w : Operand) (s : State) :
    (s.writeReg f v).writeReg g w = (s.writeReg g w).writeReg f v := by
  cases f <;> cases g <;> first | rfl | exact absurd rfl hne

/-- The registers an entry writes, besides that of its field: SEEN, FR_LAST and the response. -/
theorem defineField_eq (f : ConfigField) (v : Operand) (s : State) :
    defineField f v s =
      { s.writeReg f v with
        seen := s.seen ||| BitVec.twoPow 6 f.bit, frLast := (s.noteFrLast f).frLast, response := okResponse } := by
  cases f <;> rfl

/-- The write of a field and the writes of the three registers that every entry may touch are independent. -/
theorem writeReg_flags (g : ConfigField) (w : Operand) (b : BitVec 6) (c : BitVec 1) (r : Response) (s : State) :
    { s with seen := b, frLast := c, response := r }.writeReg g w =
      { s.writeReg g w with seen := b, frLast := c, response := r } := by
  cases g <;> rfl

/-- What two entries leave, FR_LAST apart. -/
theorem defineField_defineField (f g : ConfigField) (v w : Operand) (s : State) (c : BitVec 1) :
    { defineField g w (defineField f v s) with frLast := c } =
      { (s.writeReg f v).writeReg g w with
        seen := s.seen ||| BitVec.twoPow 6 f.bit ||| BitVec.twoPow 6 g.bit, frLast := c, response := okResponse } := by
  rw [defineField_eq g, defineField_eq f, writeReg_flags]

theorem defineField_comm (hne : f ≠ g) (v w : Operand) (s : State) (c : BitVec 1) :
    { defineField f v (defineField g w s) with frLast := c } =
      { defineField g w (defineField f v s) with frLast := c } := by
  rw [defineField_defineField, defineField_defineField, writeReg_comm hne, BitVec.or_assoc,
    BitVec.or_comm (BitVec.twoPow 6 g.bit), ← BitVec.or_assoc]

end Sys2Proof.Laws
end

section

open Sys2Proof Sys2Proof.Machine Sys2Proof.Safety Sys2Proof.Laws

/-- Settles O22: neither entry is of the other's field nor in conflict with it, so each is accepted in either order, and they
write different registers. -/
theorem entriesThatRaiseNothingCommute : Obligations.EntriesThatRaiseNothingCommute := by
  intro f g v w s t u hne hm ht htm hu hum
  obtain ⟨hf, rfl⟩ := entryAccepted_of_exec hm ht htm
  obtain ⟨hg', rfl⟩ := entryAccepted_of_exec htm hu hum
  obtain ⟨hg, -, hconf⟩ := entryAccepted_defineField.mp hg'
  have hf' : EntryAccepted f v (defineField g w s) :=
    entryAccepted_defineField.mpr ⟨hf, hne.symm, fun h => hconf (fieldsConflict_comm.mp h)⟩
  exact ⟨_, _, exec_entry_of_accepted hg, hf'.mode, exec_entry_of_accepted hf', defineField_comm hne v w s _⟩

/-- Settles O13: `frequency` is in conflict with no field and takes any number. -/
theorem frequencyEntryDefinesTheField : Obligations.FrequencyEntryDefinesTheField := by
  intro v s hm hunseen
  exact exec_entry_of_accepted (f := .frequency) ⟨hm, hunseen, nofun, nofun⟩

/-- Settles O14: `rate` is in conflict with no field and takes any number. -/
theorem rateEntryDefinesTheField : Obligations.RateEntryDefinesTheField := by
  intro v s hm hunseen
  exact exec_entry_of_accepted (f := .rate) ⟨hm, hunseen, nofun, nofun⟩

/-- Settles O15: the only field `len` is in conflict with is `repeats`. -/
theorem lenEntryDefinesTheField : Obligations.LenEntryDefinesTheField := by
  intro v s hm hunseen hrepeats
  have hfree : ∀ g, FieldsConflict .len g → s.seenFlag g = false := by
    rintro g (⟨-, rfl⟩ | ⟨hf, -⟩)
    · exact hrepeats
    · cases hf
  exact exec_entry_of_accepted (f := .len) ⟨hm, hunseen, hfree, nofun⟩

/-- Settles O16: the only field `repeats` is in conflict with is `len`. -/
theorem repeatsEntryDefinesTheField : Obligations.RepeatsEntryDefinesTheField := by
  intro v s hm hunseen hlen
  have hfree : ∀ g, FieldsConflict .repeats g → s.seenFlag g = false := by
    rintro g (⟨hf, -⟩ | ⟨-, rfl⟩)
    · cases hf
    · exact hlen
  exact exec_entry_of_accepted (f := .repeats) ⟨hm, hunseen, hfree, nofun⟩

/-- Settles O17: `skip` is in conflict with no field and takes any number. -/
theorem skipEntryDefinesTheField : Obligations.SkipEntryDefinesTheField := by
  intro v s hm hunseen
  exact exec_entry_of_accepted (f := .skip) ⟨hm, hunseen, nofun, nofun⟩

/-- Settles O18: the operand names a width, which is the one written. -/
theorem typeEntryDefinesTheWidth : Obligations.TypeEntryDefinesTheWidth := by
  intro v w s hm hunseen hv
  have hw : operandWidth v = some w := operandWidth_eq_some hv
  have hwrite : s.writeReg .type v = { s with width := w } := by rw [State.writeReg, hw]; rfl
  calc exec (.type v) s
      = .next (defineField .type v s) := exec_entry_of_accepted (f := .type) ⟨hm, hunseen, nofun, fun _ => by simp [hw]⟩
    _ = .next { s with width := w, seen := s.seen ||| 0b100000#6, response := okResponse } := by
      rw [defineField_eq, hwrite]; rfl

/-- Settles O21: of the cases of an entry, an unset `type` with an operand that names no width leaves the third. -/
theorem illegalTypeOperandRaisesInvalidLiteral : Obligations.IllegalTypeOperandRaisesInvalidLiteral := by
  intro v s hm hunseen h8 h16 h32
  have hnone : operandWidth v = none := operandWidth_eq_none h8 h16 h32
  have hexec : exec (.type v) s = .next (entry .type 0x06 v s) := exec_entry_in_config (f := .type) hm
  rw [hexec]
  rcases entry_cases .type 0x06 v s with ⟨hset, -⟩ | ⟨-, g, hg, -⟩ | ⟨-, -, -, -, he⟩ | ⟨-, -, hwidth, -⟩
  · cases hset.symm.trans hunseen
  · cases hg
  · rw [he]; rfl
  · exact absurd hnone (hwidth rfl)

end

section
/-!
The outcome of `gen`, by the conditions of R132 and by the period (R120, R127, R130).
-/

namespace Sys2Proof.Laws

open Sys2Proof.Machine Sys2Proof.Safety

variable {s t : State}

/-- No field the positivity pass looks at holds 0, so it is passed (R122). -/
theorem firstZeroField_of_nonzero (hfreq : s.frequency ≠ 0) (hrate : s.rate ≠ 0)
    (hlen : s.seenFlag .len = true → s.len ≠ 0) (hrep : s.repeats ≠ 0) : s.firstZeroField = none := by
  have hlen' : ¬ (s.seenFlag .len = true ∧ s.len = 0) := fun ⟨hseen, hzero⟩ => hlen hseen hzero
  rw [State.firstZeroField, if_neg hfreq, if_neg hrate, if_neg hlen', if_neg hrep]

/-- The checks of `gen` leave nothing but the conditions of R132. -/
theorem genAccepts_of_checks (hz : s.firstZeroField = none) (hP : 3 ≤ s.periodLength.toNat) : genAccepts s := by
  obtain ⟨hfreq, hrate, hlen, hrep⟩ := firstZeroField_none hz
  have hpos : 0 < s.frequency.toNat := BitVec.toNat_pos_of_ne_zero hfreq
  rw [periodLength_toNat] at hP
  refine ⟨hpos, BitVec.toNat_pos_of_ne_zero hrate, ?_, BitVec.toNat_pos_of_ne_zero hrep,
    (Nat.le_div_iff_mul_le hpos).mp hP⟩
  cases hseen : s.seenFlag .len with
  | false => exact .inl rfl
  | true => exact .inr (BitVec.toNat_pos_of_ne_zero (hlen hseen))

theorem exec_gen_in_config (hm : s.mode = .config) : exec .gen s = .next (generate true 0x10 s) := by
  rw [exec_gen, whenMode_in hm]

/-- A `gen` that comes to MODE ERROR has done nothing but take an error. -/
theorem exec_gen_raises (hm : s.mode = .config) (h : exec .gen s = .next t) (ht : t.mode = .error) :
    ∃ k f v o, t = s.raise k (some f) 0x10 v o := by
  rw [exec_gen_in_config hm] at h
  obtain rfl := Host.Outcome.next.inj h
  rcases generate_raises_or_arms true 0x10 s with ⟨k, f, v, o, -, hg⟩ | ⟨-, -, hg⟩
  · exact ⟨k, f, v, o, hg⟩
  · rw [hg] at ht; cases ht

/-- With the positivity pass behind it, a period of 2 is the degenerate wave (R127). -/
theorem generate_of_period_two (op : Opcode) (hz : s.firstZeroField = none) (hP : s.periodLength.toNat = 2) :
    generate true op s =
      s.raise .degenerateWave (some s.blame) op (s.reg s.blame) (s.reg (otherOfPair s.blame)) := by
  rcases generate_cases true op s with ⟨hb, -⟩ | ⟨f, hf, -⟩ | ⟨-, hshort, -⟩ | ⟨-, -, hg⟩ | ⟨-, hlong, -⟩
  · cases hb
  · cases hz.symm.trans hf
  · omega
  · exact hg
  · omega

/-- The value of the blamed field and of the other (R125). -/
theorem reg_blame (s : State) : s.reg s.blame = if s.blame = .frequency then s.frequency else s.rate := by
  rcases blame_cases s with hb | hb <;> rw [hb] <;> rfl

theorem reg_otherOfPair_blame (s : State) :
    s.reg (otherOfPair s.blame) = if s.blame = .frequency then s.rate else s.frequency := by
  rcases blame_cases s with hb | hb <;> rw [hb] <;> rfl

/-- The 64-bit product of two 32-bit numbers drops no bits (R31, R133). -/
theorem wideProduct_toNat (x y : Word) : (x.setWidth 64 * y.setWidth 64 : Wide).toNat = x.toNat * y.toNat := by
  have hprod : x.toNat * y.toNat < 2 ^ 32 * 2 ^ 32 := Nat.mul_lt_mul'' x.isLt y.isLt
  rw [BitVec.toNat_mul, BitVec.toNat_setWidth_of_le (by decide), BitVec.toNat_setWidth_of_le (by decide)]
  exact Nat.mod_eq_of_lt hprod

/-- The output count reads LEN, its flag and REPEATS, and no other register (R128). -/
theorem outputCount_congr {s s' : State} (P : Word) (hseen : s.seenFlag .len = s'.seenFlag .len) (hlen : s.len = s'.len)
    (hrep : s.repeats = s'.repeats) : s.outputCount P = s'.outputCount P := by
  rw [State.outputCount, State.outputCount, hseen, hlen, hrep]

end Sys2Proof.Laws
end

section

open Sys2Proof Sys2Proof.Machine Sys2Proof.Safety Sys2Proof.Laws

/-- Settles O24: on an accepted configuration `gen` arms the stream, and the record written out is what arming writes. -/
theorem genArmsTheStream : Obligations.GenArmsTheStream := by
  intro s hm haccepts
  constructor
  · rw [exec_gen_in_config hm, generate_of_accepts 0x10 haccepts]
    rfl
  · rw [wideProduct_toNat, BitVec.toNat_udiv]

/-- Settles O25: `gen` arms the stream exactly when it passes the positivity pass with a period of at least 3. -/
theorem genSucceedsExactlyWhenAccepted : Obligations.GenSucceedsExactlyWhenAccepted := by
  intro s hm
  rw [exec_gen_in_config hm]
  constructor
  · rintro ⟨t, h, ht⟩
    obtain rfl := Host.Outcome.next.inj h
    rcases generate_raises_or_arms true 0x10 s with ⟨k, f, v, o, -, hg⟩ | ⟨hz, hP, -⟩
    · rw [hg] at ht; cases ht
    · exact genAccepts_of_checks hz hP
  · intro haccepts
    exact ⟨_, rfl, by rw [generate_of_accepts 0x10 haccepts, arm_mode]⟩

/-- Settles O28: rates from twice to below three times the frequency are those of period 2. -/
theorem genRejectsDegenerateWaves : Obligations.GenRejectsDegenerateWaves := by
  intro s hm hfreq hlen hrep hlow hhigh
  have hpos : 0 < s.frequency.toNat := BitVec.toNat_pos_of_ne_zero hfreq
  have hrate : s.rate ≠ 0 := by
    intro hzero
    have : s.rate.toNat = 0 := by rw [hzero]; rfl
    omega
  have hz : s.firstZeroField = none := firstZeroField_of_nonzero hfreq hrate hlen hrep
  have hP : s.periodLength.toNat = 2 := by
    rw [periodLength_toNat]
    exact Nat.div_eq_of_lt_le hlow hhigh
  rw [exec_gen_in_config hm, generate_of_period_two 0x10 hz hP, reg_blame, reg_otherOfPair_blame]
  rfl

/-- Settles O30: what a failing `gen` leaves is `raise` of the old state, which writes the record, MODE and the response. -/
theorem failingGenCommitsOnlyTheRecord : Obligations.FailingGenCommitsOnlyTheRecord := by
  intro s t hm h ht
  obtain ⟨k, f, v, o, rfl⟩ := exec_gen_raises hm h ht
  exact ⟨rfl, fun hempty => hempty⟩

/-- Settles O32: both runs end armed, and arming reads the period, WIDTH, SKIP, LEN with its flag and REPEATS. -/
theorem genDependsOnRatesOnlyThroughThePeriod : Obligations.GenDependsOnRatesOnlyThroughThePeriod := by
  intro s s' t t' hm hm' h h' ht ht' hratio hwidth hskip hseen hlen hrep
  obtain rfl := exec_gen_streams hm h ht
  obtain rfl := exec_gen_streams hm' h' ht'
  have hP : s.periodLength = s'.periodLength :=
    BitVec.eq_of_toNat_eq (by rw [periodLength_toNat, periodLength_toNat, hratio])
  have hcount := outputCount_congr s'.periodLength hseen hlen hrep
  simp [hP, hcount, hwidth, hskip]

end

section
/-!
Rounding toward zero (spec/00_scope.md R9, spec/42_sine_quantizer.md R142): it determines the integer, it is odd, and it
leaves an integer as it is.
-/

namespace Sys2Proof.Safety

variable {x : ℝ} {m n : ℤ}

theorem TruncatesTo.of_nonneg (hx : 0 ≤ x) : TruncatesTo x ⌊x⌋ :=
  ⟨fun _ => rfl, fun hneg => absurd hneg hx.not_gt⟩

theorem TruncatesTo.unique (hm : TruncatesTo x m) (hn : TruncatesTo x n) : m = n := by
  rcases le_or_gt 0 x with hx | hx
  · exact (hm.1 hx).trans (hn.1 hx).symm
  · exact (hm.2 hx).trans (hn.2 hx).symm

theorem TruncatesTo.neg (hn : TruncatesTo x n) : TruncatesTo (-x) (-n) := by
  constructor
  · intro hx
    rcases (neg_nonneg.mp hx).lt_or_eq with hneg | rfl
    · rw [hn.2 hneg, neg_neg]
    · simp [hn.1 le_rfl]
  · intro hx
    rw [hn.1 (neg_lt_zero.mp hx).le, neg_neg]

theorem truncatesTo_intCast (m : ℤ) : TruncatesTo (m : ℝ) m :=
  ⟨fun _ => (Int.floor_intCast m).symm, fun _ => by rw [← Int.cast_neg, Int.floor_intCast, neg_neg]⟩

/-- A lower bound that is an integer and not negative survives the rounding. -/
theorem TruncatesTo.le_of_intCast_le (hn : TruncatesTo x n) (hm : 0 ≤ m) (hmx : (m : ℝ) ≤ x) : m ≤ n := by
  have hx : 0 ≤ x := le_trans (by exact_mod_cast hm) hmx
  rw [hn.1 hx]
  exact Int.le_floor.mpr hmx

/-- Below 1 a product that is not negative rounds to 0. -/
theorem TruncatesTo.eq_zero_of_lt_one (hn : TruncatesTo x n) (hx : 0 ≤ x) (hlt : x < 1) : n = 0 :=
  (hn.1 hx).trans (Int.floor_eq_zero_iff.mpr ⟨hx, hlt⟩)

end Sys2Proof.Safety
end

section
/-!
The sine sample over the real numbers (R141, R143, R145): on the four axes of the circle it is the real product itself, and
elsewhere its magnitude is the floor of the product of the folded index, strictly below the amplitude.
-/

namespace Sys2Proof.Laws

open Sys2Proof.Machine Sys2Proof.Safety

/-- Index `i` of a table of length `P` stands for a multiple of a right angle: the integer tests of R143. -/
def onAxis (P i : ℕ) : Prop := i = 0 ∨ 2 * i = P ∨ 4 * i = P ∨ 4 * i = 3 * P

theorem maxAmp_pos (w : Width) : 0 < maxAmp w := by cases w <;> decide

theorem maxAmp_add_one (w : Width) : (maxAmp w : ℤ) + 1 = 2 ^ (w.bits - 1) := by cases w <;> decide

theorem maxAmp_cast (w : Width) : (maxAmp w : ℝ) = 2 ^ (w.bits - 1) - 1 := by
  rw [eq_sub_iff_add_eq]
  exact_mod_cast maxAmp_add_one w

theorem maxAmp_ge (w : Width) : 127 ≤ maxAmp w := by cases w <;> decide

/-! ### On the axes -/

variable {P i : ℕ}

theorem sineSample_zero (w : Width) (P : ℕ) : sineSample w P 0 = 0 := if_pos (.inl rfl)

theorem sineSample_half (w : Width) (h : 2 * i = P) : sineSample w P i = 0 := if_pos (.inr h)

theorem sineSample_quarter (w : Width) (hP : 0 < P) (h : 4 * i = P) : sineSample w P i = maxAmp w := by
  rw [sineSample, if_neg (by omega), if_pos h]

theorem sineSample_three_quarters (w : Width) (hP : 0 < P) (h : 4 * i = 3 * P) : sineSample w P i = -(maxAmp w : ℤ) := by
  rw [sineSample, if_neg (by omega), if_neg (by omega), if_pos h]

/-- An index that is a whole number of quarter periods stands for that number of right angles. -/
theorem phase_of_quarters {q : ℕ} (hP : 0 < P) (h : 4 * i = q * P) : 2 * Real.pi * i / P = q * (Real.pi / 2) := by
  have hP' : (P : ℝ) ≠ 0 := by exact_mod_cast hP.ne'
  have h' : (4 : ℝ) * i = q * P := by exact_mod_cast h
  field_simp
  linear_combination h'

theorem sin_three_pi_div_two : Real.sin ((3 : ℕ) * (Real.pi / 2)) = -1 := by
  rw [show ((3 : ℕ) : ℝ) * (Real.pi / 2) = Real.pi / 2 + Real.pi by push_cast; ring, Real.sin_add_pi, Real.sin_pi_div_two]

/-- R143: on the axes the real product is an integer, and it is the sample. -/
theorem sineSample_of_onAxis (w : Width) (hi : i < P) (h : onAxis P i) :
    (sineSample w P i : ℝ) = maxAmp w * Real.sin (2 * Real.pi * i / P) := by
  have hP : 0 < P := by omega
  rcases h with rfl | h | h | h
  · simp [sineSample_zero]
  · rw [sineSample_half w h, phase_of_quarters (q := 2) hP (by omega),
      show ((2 : ℕ) : ℝ) * (Real.pi / 2) = Real.pi by push_cast; ring]
    simp
  · rw [sineSample_quarter w hP h, phase_of_quarters (q := 1) hP (by omega)]
    simp
  · rw [sineSample_three_quarters w hP h, phase_of_quarters (q := 3) hP (by omega), sin_three_pi_div_two]
    simp

/-! ### Off the axes -/

/-- Off the axes the sample is the magnitude of a folded index inside the quadrant, with the sign of the sine (R146). -/
theorem sineSample_off_axes (w : Width) (hi : i < P) (h : ¬ onAxis P i) : ∃ k, 0 < k ∧ k < P ∧
    ((Real.sin (2 * Real.pi * i / P) = Real.sin (angle k P) ∧ sineSample w P i = sinMagFloor (maxAmp w) k P) ∨
     (Real.sin (2 * Real.pi * i / P) = -Real.sin (angle k P) ∧ sineSample w P i = -sinMagFloor (maxAmp w) k P)) := by
  unfold onAxis at h
  obtain ⟨hk, hkP⟩ := foldedIndex_bounds (by omega) (off_axes hi (by omega) (by omega) (by omega))
  refine ⟨foldedIndex P i, hk, hkP, ?_⟩
  rw [sineSample, if_neg (by omega), if_neg (by omega), if_neg (by omega)]
  have hsin := sin_foldedIndex hi
  by_cases hhalf : 4 * i / P < 2
  · exact .inl ⟨hsin.trans (if_pos hhalf), if_pos hhalf⟩
  · exact .inr ⟨hsin.trans (if_neg hhalf), if_neg hhalf⟩

/-- Inside the quadrant the real product lies from 0 to below the amplitude. -/
theorem mul_sin_angle_bounds (w : Width) {k : ℕ} (hk : 0 < k) (hkP : k < P) :
    0 ≤ (maxAmp w : ℝ) * Real.sin (angle k P) ∧ (maxAmp w : ℝ) * Real.sin (angle k P) < maxAmp w := by
  have hpos := angle_pos hk hkP
  have hlt := angle_lt hkP
  have hamp : (0 : ℝ) < maxAmp w := by exact_mod_cast maxAmp_pos w
  have hsin0 : 0 ≤ Real.sin (angle k P) := Real.sin_nonneg_of_nonneg_of_le_pi hpos.le (by linarith)
  have hsin1 : Real.sin (angle k P) < 1 := by
    rw [← Real.sin_pi_div_two]
    exact Real.sin_lt_sin_of_lt_of_le_pi_div_two (by linarith) le_rfl hlt
  exact ⟨mul_nonneg hamp.le hsin0, mul_lt_of_lt_one_right hamp hsin1⟩

/-- Off the axes no sample reaches the amplitude (R149). -/
theorem abs_sineSample_lt (w : Width) (hi : i < P) (h : ¬ onAxis P i) : |sineSample w P i| < maxAmp w := by
  obtain ⟨k, hk, hkP, hcase⟩ := sineSample_off_axes w hi h
  have hlt : sinMagFloor (maxAmp w) k P < maxAmp w := by
    rw [sinMagFloor_eq w hk hkP, Int.floor_lt]
    exact_mod_cast (mul_sin_angle_bounds w hk hkP).2
  have hnonneg := (sinMagFloor_bounds w hk hkP).1
  rw [abs_lt]
  rcases hcase with ⟨-, hs⟩ | ⟨-, hs⟩ <;> omega

/-- A sample is at its greatest at a quarter of the period, at its least at three quarters, and strictly between elsewhere. -/
theorem sineSample_range_cases (w : Width) (hi : i < P) :
    (4 * i = P ∧ sineSample w P i = maxAmp w) ∨ (4 * i = 3 * P ∧ sineSample w P i = -(maxAmp w : ℤ)) ∨
    (4 * i ≠ P ∧ 4 * i ≠ 3 * P ∧ -(maxAmp w : ℤ) < sineSample w P i ∧ sineSample w P i < maxAmp w) := by
  have hP : 0 < P := by omega
  have hamp : (0 : ℤ) < maxAmp w := by exact_mod_cast maxAmp_pos w
  by_cases hquarter : 4 * i = P
  · exact .inl ⟨hquarter, sineSample_quarter w hP hquarter⟩
  by_cases hthree : 4 * i = 3 * P
  · exact .inr (.inl ⟨hthree, sineSample_three_quarters w hP hthree⟩)
  refine .inr (.inr ⟨hquarter, hthree, ?_⟩)
  by_cases h : i = 0 ∨ 2 * i = P
  · have hs : sineSample w P i = 0 := if_pos h
    omega
  · exact abs_lt.mp (abs_sineSample_lt w hi (by unfold onAxis; omega))

/-! ### The sample is the truncated product -/

/-- R141: the sample is the real product, rounded toward zero. -/
theorem truncatesTo_sineSample (w : Width) (hi : i < P) :
    TruncatesTo (maxAmp w * Real.sin (2 * Real.pi * i / P)) (sineSample w P i) := by
  by_cases h : onAxis P i
  · rw [← sineSample_of_onAxis w hi h]
    exact truncatesTo_intCast _
  · obtain ⟨k, hk, hkP, hcase⟩ := sineSample_off_axes w hi h
    have hfloor := TruncatesTo.of_nonneg (mul_sin_angle_bounds w hk hkP).1
    rw [← sinMagFloor_eq w hk hkP] at hfloor
    rcases hcase with ⟨hsin, hs⟩ | ⟨hsin, hs⟩
    · rw [hsin, hs]
      exact hfloor
    · rw [hsin, hs, mul_neg]
      exact hfloor.neg

/-- Equal sines give equal samples. -/
theorem sineSample_congr (w : Width) {j : ℕ} (hi : i < P) (hj : j < P)
    (h : Real.sin (2 * Real.pi * j / P) = Real.sin (2 * Real.pi * i / P)) : sineSample w P j = sineSample w P i := by
  have hs := truncatesTo_sineSample w hj
  rw [h] at hs
  exact hs.unique (truncatesTo_sineSample w hi)

/-- Opposite sines give opposite samples, because the rounding is odd (R144). -/
theorem sineSample_neg_congr (w : Width) {j : ℕ} (hi : i < P) (hj : j < P)
    (h : Real.sin (2 * Real.pi * j / P) = -Real.sin (2 * Real.pi * i / P)) : sineSample w P j = -sineSample w P i := by
  have hs := truncatesTo_sineSample w hj
  rw [h, mul_neg] at hs
  exact hs.unique (truncatesTo_sineSample w hi).neg

/-- In the first half of the table the sine is not negative. -/
theorem sin_phase_nonneg (h : 2 * i ≤ P) : 0 ≤ Real.sin (2 * Real.pi * i / P) := by
  apply Real.sin_nonneg_of_nonneg_of_le_pi (by positivity)
  have h' : (2 : ℝ) * i ≤ P := by exact_mod_cast h
  apply div_le_of_le_mul₀ (by positivity) Real.pi_pos.le
  nlinarith [Real.pi_pos]

/-! ### The mirror images of an index -/

/-- The index `P - i` stands for the angle that completes the circle. -/
theorem phase_sub (hP : 0 < P) (hi : i ≤ P) :
    2 * Real.pi * (P - i : ℕ) / P = 2 * Real.pi - 2 * Real.pi * i / P := by
  have hP' : (P : ℝ) ≠ 0 := by exact_mod_cast hP.ne'
  rw [Nat.cast_sub hi]
  field_simp

/-- Half an even period further stands for half the circle more. -/
theorem phase_add_half (hP : 0 < P) (heven : P % 2 = 0) :
    2 * Real.pi * (i + P / 2 : ℕ) / P = 2 * Real.pi * i / P + Real.pi := by
  have hP' : (P : ℝ) ≠ 0 := by exact_mod_cast hP.ne'
  have hhalf : (2 : ℝ) * (P / 2 : ℕ) = P := by exact_mod_cast Nat.mul_div_cancel' (Nat.dvd_of_mod_eq_zero heven)
  rw [Nat.cast_add]
  field_simp
  linear_combination hhalf

/-- The index `P / 2 - i` of an even period stands for the angle that completes the half circle. -/
theorem phase_half_sub (hP : 0 < P) (heven : P % 2 = 0) (hi : i ≤ P / 2) :
    2 * Real.pi * (P / 2 - i : ℕ) / P = Real.pi - 2 * Real.pi * i / P := by
  have hP' : (P : ℝ) ≠ 0 := by exact_mod_cast hP.ne'
  have hhalf : (2 : ℝ) * (P / 2 : ℕ) = P := by exact_mod_cast Nat.mul_div_cancel' (Nat.dvd_of_mod_eq_zero heven)
  rw [Nat.cast_sub hi]
  field_simp
  linear_combination hhalf

end Sys2Proof.Laws
end

section
/-!
How small and how large the samples of a table are: its first element, and one of magnitude 63 in every table of length 3 or
more (R152, R153).
-/

namespace Sys2Proof.Laws

open Sys2Proof.Machine Sys2Proof.Safety

variable {P i : ℕ}

/-- Within a sixth of the circle from its top the sine is at least one half. -/
theorem half_le_sin {x : ℝ} (hlow : Real.pi / 6 ≤ x) (hhigh : x ≤ 5 * Real.pi / 6) : 1 / 2 ≤ Real.sin x := by
  have hdist : |x - Real.pi / 2| ≤ Real.pi / 3 := abs_le.mpr ⟨by linarith, by linarith⟩
  calc 1 / 2 = Real.cos (Real.pi / 3) := Real.cos_pi_div_three.symm
    _ ≤ Real.cos |x - Real.pi / 2| :=
      Real.cos_le_cos_of_nonneg_of_le_pi (abs_nonneg _) (by linarith [Real.pi_pos]) hdist
    _ = Real.sin x := by rw [Real.cos_abs, Real.cos_sub_pi_div_two]

/-- From a twelfth to five twelfths of the period every sample is at least 63 (R153). -/
theorem le_sineSample_near_top (w : Width) (hlow : P ≤ 12 * i) (hhigh : 12 * i ≤ 5 * P) (hi : i < P) :
    63 ≤ sineSample w P i := by
  have hP : (0 : ℝ) < P := by exact_mod_cast (by omega : 0 < P)
  have hlow' : (P : ℝ) ≤ 12 * i := by exact_mod_cast hlow
  have hhigh' : (12 : ℝ) * i ≤ 5 * P := by exact_mod_cast hhigh
  have hpi := Real.pi_pos
  have hsin : 1 / 2 ≤ Real.sin (2 * Real.pi * i / P) := by
    apply half_le_sin
    · rw [div_le_div_iff₀ (by norm_num) hP]
      nlinarith
    · rw [div_le_div_iff₀ hP (by norm_num)]
      nlinarith
  have hamp : (127 : ℝ) ≤ maxAmp w := by exact_mod_cast maxAmp_ge w
  apply (truncatesTo_sineSample w hi).le_of_intCast_le (by norm_num)
  calc ((63 : ℤ) : ℝ) ≤ 127 * (1 / 2) := by norm_num
    _ ≤ maxAmp w * Real.sin (2 * Real.pi * i / P) := by gcongr

/-- Every table of length 3 or more has a sample of 63 or more: the first at or after a twelfth of the period. -/
theorem exists_le_sineSample (w : Width) (hP : 3 ≤ P) : ∃ i, i < P ∧ 63 ≤ sineSample w P i :=
  ⟨(P + 11) / 12, by omega, le_sineSample_near_top w (by omega) (by omega) (by omega)⟩

/-- The tables of length 1 and 2 are all zero (R153); a table of length 0 has no element. -/
theorem sineSample_of_short (w : Width) (hP : P ≤ 2) (hi : i < P) : sineSample w P i = 0 := by
  rcases Nat.eq_zero_or_pos i with rfl | hpos
  · exact sineSample_zero w P
  · exact sineSample_half w (by omega)

/-- The table is all zero exactly below length 3. -/
theorem sineSample_all_zero_iff (w : Width) (P : ℕ) : (∀ i, i < P → sineSample w P i = 0) ↔ P ≤ 2 := by
  constructor
  · intro hzero
    by_contra hlong
    obtain ⟨i, hi, hlarge⟩ := exists_le_sineSample w (by omega : 3 ≤ P)
    have := hzero i hi
    omega
  · exact fun hP i hi => sineSample_of_short w hP hi

/-- A product below 1 in the first half of the table gives the sample 0. -/
theorem sineSample_eq_zero_of_lt_one (w : Width) (hi : i < P) (hhalf : 2 * i ≤ P)
    (h : (maxAmp w : ℝ) * Real.sin (2 * Real.pi * i / P) < 1) : sineSample w P i = 0 :=
  (truncatesTo_sineSample w hi).eq_zero_of_lt_one (mul_nonneg (Nat.cast_nonneg _) (sin_phase_nonneg hhalf)) h

theorem sineSample_nonneg (w : Width) (hi : i < P) (hhalf : 2 * i ≤ P) : 0 ≤ sineSample w P i := by
  apply (truncatesTo_sineSample w hi).le_of_intCast_le le_rfl
  rw [Int.cast_zero]
  exact mul_nonneg (Nat.cast_nonneg _) (sin_phase_nonneg hhalf)

/-- From length 798 on the second element at 8 bits comes from a product below 1, because the sine is below its angle. -/
theorem amp8_mul_sin_lt_one (hP : 798 ≤ P) : (maxAmp .w8 : ℝ) * Real.sin (2 * Real.pi * (1 : ℕ) / P) < 1 := by
  have hP' : (798 : ℝ) ≤ P := by exact_mod_cast hP
  have hpos := Real.pi_pos
  have hpi := Real.pi_lt_d6
  have hamp : ((maxAmp .w8 : ℕ) : ℝ) = 127 := by norm_num [maxAmp, Width.bits]
  have hP0 : (0 : ℝ) < P := by linarith
  rw [hamp, Nat.cast_one, mul_one]
  calc 127 * Real.sin (2 * Real.pi / P) ≤ 127 * (2 * Real.pi / P) := by
        gcongr
        exact Real.sin_le (by positivity)
    _ ≤ 127 * (2 * Real.pi / 798) := by gcongr
    _ < 1 := by linarith

end Sys2Proof.Laws
end

section

open Sys2Proof Sys2Proof.Machine Sys2Proof.Safety Sys2Proof.Laws

/-- Settles O43: on the axes the sample is the product itself, and elsewhere the floor of its magnitude, with its sign. -/
theorem sineSampleIsTheTruncatedRealSine : Obligations.SineSampleIsTheTruncatedRealSine := by
  intro w P i hi
  rw [← maxAmp_cast]
  exact truncatesTo_sineSample w hi

/-- Settles O44: the four integer tests are those of the axes. -/
theorem sineSampleExactCases : Obligations.SineSampleExactCases := by
  refine ⟨fun w P hP => ⟨sineSample_zero w P, fun heven => ?_, fun hquarters => ⟨?_, ?_⟩⟩, fun w P i hi haxis => ?_⟩
  · exact sineSample_half w (by omega)
  · exact sineSample_quarter w hP (by omega)
  · exact sineSample_three_quarters w hP (by omega)
  · exact sineSample_of_onAxis w hi haxis

/-- Settles O45: each symmetry is that of the sine at the mirrored angle, which the rounding keeps. -/
theorem sineSampleSymmetries : Obligations.SineSampleSymmetries := by
  refine ⟨fun w P i hpos hi => ?_, fun w P i heven hi => ?_, fun w P i heven hP hi => ?_, fun w P i hi => ?_⟩
  · apply sineSample_neg_congr w hi (by omega)
    rw [phase_sub (by omega) hi.le, Real.sin_two_pi_sub]
  · apply sineSample_neg_congr w (by omega) (by omega)
    rw [phase_add_half (by omega) heven, Real.sin_add_pi]
  · apply sineSample_congr w (by omega) (by omega)
    rw [phase_half_sub hP heven hi, Real.sin_pi_sub]
  · have hlow := (sineSample_bounds w hi).1
    have hamp := maxAmp_add_one w
    omega

/-- Settles O46: the extremes stand at one and at three quarters of the period, and every other sample lies strictly between. -/
theorem sineSampleRange : Obligations.SineSampleRange := by
  refine ⟨by decide, by decide, by decide, fun w P i hi => ?_⟩
  have hamp := maxAmp_pos w
  rcases sineSample_range_cases w hi with ⟨h, hs⟩ | ⟨h, hs⟩ | ⟨hquarter, hthree, hlow, hhigh⟩
  all_goals omega

/-- Settles O47: the product of element 1 is not negative, and it falls below 1 as the period grows. -/
theorem tableStartsAtZeroAndAscends : Obligations.TableStartsAtZeroAndAscends := by
  refine ⟨fun w P hP => ⟨sineSample_zero w P, ?_, fun hlt => ?_⟩, fun P hP => ?_, by decide +kernel⟩
  · exact sineSample_nonneg w (by omega) (by omega)
  · exact sineSample_eq_zero_of_lt_one w (by omega) (by omega) (by simpa using hlt)
  · exact sineSample_eq_zero_of_lt_one .w8 (by omega) (by omega) (amp8_mul_sin_lt_one hP)

/-- Settles O48: the lengths 1 and 2 have indices on the zeros of the sine only, and length 3 has one near its top. -/
theorem degenerateTablesAreLengthsOneAndTwo : Obligations.DegenerateTablesAreLengthsOneAndTwo := by
  refine ⟨fun w P hP => ?_, fun w P hP => ?_, fun w P => ?_⟩
  · rw [sineSample_all_zero_iff]
    omega
  · obtain ⟨i, hi, hlarge⟩ := exists_le_sineSample w hP
    exact ⟨i, hi, hlarge.trans (le_abs_self _)⟩
  · rw [sineSample_all_zero_iff, allZeroTable, decide_eq_true_iff]

end

section
/-!
A run that is over (R164, R191): in MODE DONE and in MODE ERROR every command but `clear` is answered `nak`, so a slot without
`rst` and `clear` writes nothing but the response.
-/

namespace Sys2Proof.Laws

open Sys2Proof.Machine Sys2Proof.Safety

variable {s : State}

/-- The run is over: MODE DONE or ERROR (R164). -/
def Finished (s : State) : Prop := s.mode = .done ∨ s.mode = .error

/-- A slot that neither asserts `rst` nor holds the opcode of `clear`. -/
def HoldsFinished (p : HostInput) : Prop := p.rst = false ∧ opcodeOf p.cmd ≠ 0x1F

/-- Over, and no slot to come leaves it. -/
def FinishedForGood (s : State) : Prop := Finished s ∧ ∀ p ∈ s.host, HoldsFinished p

theorem Finished.mode_ne_config (h : Finished s) : s.mode ≠ .config := by
  rcases h with hm | hm <;> rw [hm] <;> decide

theorem Finished.mode_ne_stream (h : Finished s) : s.mode ≠ .stream := by
  rcases h with hm | hm <;> rw [hm] <;> decide

/-- The table of R86 has no row but that of `clear` for a run that is over. -/
theorem executesIn_of_finished {op : Opcode} (h : Finished s) (hop : op ≠ 0x1F) : executesIn s.mode op = false := by
  rw [executesIn, if_neg hop]
  split
  · exact decide_eq_false h.mode_ne_stream
  · exact decide_eq_false h.mode_ne_config

/-- `run_succ` for the block. -/
theorem run_core_succ {n : ℕ} {s t : State} (h : step s = .next t) :
    Host.Core.run core (n + 1) s = Host.Core.run core n t := run_succ core h

/-- The step on such a slot: nothing is presented, or the answer is `nak`. -/
theorem step_of_finished (h : FinishedForGood s) :
    ∃ r, step s = .next { s with response := r, host := s.host.drop 1 } := by
  obtain ⟨hfin, hslots⟩ := h
  rcases step_cases s with ⟨hnil, hidle⟩ | ⟨p, rest, hhost, hslot⟩
  · have hdrop : s.host.drop 1 = s.host := by rw [hnil]; rfl
    exact ⟨s.response, by rw [hdrop]; exact hidle⟩
  · obtain ⟨hrst, hop⟩ := hslots p (by simp [hhost])
    rw [hhost, List.drop_one, List.tail_cons]
    rcases hslot with ⟨hreset, -⟩ | ⟨-, -, hidle⟩ | ⟨-, -, ⟨c, hc, hexec⟩ | ⟨⟨op, v⟩, -, hreserved⟩⟩
    · cases hrst.symm.trans hreset
    · exact ⟨s.response, hidle⟩
    · have hout : executesIn s.mode c.opcode = false := executesIn_of_finished hfin (decode_opcode hc ▸ hop)
      exact ⟨nakResponse, hexec.trans (exec_out (s := { s with host := rest }) hout)⟩
    · rw [execReserved_eq] at hreserved
      exact ⟨nakResponse, hreserved.trans (whenMode_out (s := { s with host := rest }) hfin.mode_ne_config)⟩

/-- Any number of such steps. -/
theorem run_of_finished (n : ℕ) (h : FinishedForGood s) :
    ∃ r, Host.Core.run core n s = .next { s with response := r, host := s.host.drop n } := by
  induction n generalizing s with
  | zero => exact ⟨s.response, rfl⟩
  | succ n ih =>
    obtain ⟨r, hstep⟩ := step_of_finished h
    obtain ⟨hfin, hslots⟩ := h
    obtain ⟨r', hrun⟩ := ih (s := { s with response := r, host := s.host.drop 1 })
      ⟨hfin, fun p hp => hslots p (List.mem_of_mem_drop hp)⟩
    refine ⟨r', (run_core_succ hstep).trans (hrun.trans ?_)⟩
    rw [List.drop_drop, Nat.add_comm 1 n]

end Sys2Proof.Laws
end

section
/-!
The closed form of a run of `next` commands (R162): each delivers the sample of `(SKIP + INDEX) mod PERIOD` and moves INDEX on.
-/

namespace Sys2Proof.Laws

open Sys2Proof.Machine Sys2Proof.Safety

variable {s : State}

/-- Every sample fits the 32-bit port (R45, R149). -/
theorem toInt_portSample (w : Width) {P i : ℕ} (hi : i < P) :
    (BitVec.ofInt 32 (sineSample w P i)).toInt = sineSample w P i := by
  obtain ⟨hlow, hhigh⟩ := sineSample_bounds w hi
  have hamp : (maxAmp w : ℤ) < 2 ^ 31 := by cases w <;> decide
  exact BitVec.toInt_ofInt_eq_self (by decide) (by omega) (by omega)

/-- The sample the next `next` delivers, as it stands on the port. -/
def nextSample (s : State) : BitVec 32 :=
  BitVec.ofInt 32 (sineSample s.width s.period.toNat ((s.skip.toNat + s.index.toNat) % s.period.toNat))

theorem toInt_nextSample (h : generatorArmed s) :
    (nextSample s).toInt =
      sineSample s.width s.period.toNat ((s.skip.toNat + s.index.toNat) % s.period.toNat) := by
  obtain ⟨hperiod, -⟩ := h
  exact toInt_portSample s.width (Nat.mod_lt _ (by omega))

/-- One slot of `next` in a stream: the sample, and the others of the host's slots left. -/
theorem step_nextSlots (n : ℕ) (h : generatorArmed s) (hm : s.mode = .stream) :
    step (withHost (nextSlots (n + 1)) s) = .next (withHost (nextSlots n) (s.advance.respondSample (nextSample s))) := by
  have hexec : exec .next s = .next (s.advance.respondSample (nextSample s)) := exec_next_of_armed h hm
  have hstep : step (withHost (nextSlots (n + 1)) s) = exec .next (withHost (nextSlots n) s) :=
    step_of_decode (p := HostInput.command (encode .next)) rfl rfl rfl (decode_encode .next)
  rw [hstep, exec_withHost, hexec]
  rfl

/-- `n + 1` times `next` in a stream that has that many samples left: the last delivers the sample `n` places on. -/
theorem run_nextSlots (n : ℕ) (h : StateInv s) (hm : s.mode = .stream) (hn : s.index.toNat + n < s.count.toNat) :
    ∃ t, Host.Core.run core (n + 1) (withHost (nextSlots (n + 1)) s) = .next t ∧
      t.response.nak = false ∧ t.response.valid = true ∧
      t.response.sample.toInt =
        sineSample s.width s.period.toNat ((s.skip.toNat + (s.index.toNat + n)) % s.period.toNat) ∧
      t.index.toNat = s.index.toNat + n + 1 ∧
      t.mode = if s.index.toNat + n + 1 = s.count.toNat then .done else .stream := by
  induction n generalizing s with
  | zero =>
    obtain ⟨harmed, hlt⟩ := armed_of_stream h hm
    refine ⟨_, run_core_succ (step_nextSlots 0 harmed hm), rfl, rfl, toInt_nextSample harmed, advance_index_toNat hlt, ?_⟩
    rw [← hm]
    rfl
  | succ n ih =>
    obtain ⟨harmed, hlt⟩ := armed_of_stream h hm
    have hindex : (s.advance.respondSample (nextSample s)).index.toNat = s.index.toNat + 1 := advance_index_toNat hlt
    have hstream : (s.advance.respondSample (nextSample s)).mode = .stream := by
      rw [respondSample_mode, advance_mode, if_neg (by omega), hm]
    have hleft : s.index.toNat + 1 + n = s.index.toNat + (n + 1) := by omega
    obtain ⟨t, hrun, ht⟩ := ih (stateInv_deliver (nextSample s) hm h) hstream
      (by rw [hindex, respondSample_count, advance_count]; omega)
    rw [hindex, hleft] at ht
    exact ⟨t, (run_core_succ (step_nextSlots (n + 1) harmed hm)).trans hrun, ht⟩

end Sys2Proof.Laws
end

section
/-!
Configurations that give the same signal (R163): what an invocation answers is determined by the rates and the blame between
them, WIDTH, COUNT, and SKIP up to whole periods.
-/

namespace Sys2Proof.Laws

open Sys2Proof.Machine Sys2Proof.Safety

variable {s c d : State} {es es' : List SourceEntry}

/-! ### Entries that all define their fields (R89, R100) -/

/-- The front end accepts the entries, and the block takes them from `c` to `d`. -/
def EntriesLead (es : List SourceEntry) (c d : State) : Prop :=
  ∃ ws, es.mapM frontEnd = .ok ws ∧ issueAll ws c = .next d

theorem entriesLead_nil (c : State) : EntriesLead [] c c := ⟨[], rfl, rfl⟩

theorem entriesLead_cons {f : ConfigField} {n : ℕ} (hf : f ≠ .type) (hn : n < 2 ^ 32)
    (haccepted : EntryAccepted f (BitVec.ofNat 32 n) c) (h : EntriesLead es (defineField f (BitVec.ofNat 32 n) c) d) :
    EntriesLead (numericEntry f n :: es) c d := by
  obtain ⟨ws, hwords, hrun⟩ := h
  refine ⟨encode (entryInstr f (BitVec.ofNat 32 n)) :: ws, ?_, ?_⟩
  · rw [List.mapM_cons, frontEnd_numericEntry hf hn, hwords]
    rfl
  · rw [issueAll_cons ((issue_encode _ c).trans (exec_entry_of_accepted haccepted)), hrun]

theorem entryAccepted_reset {f : ConfigField} (hf : f ≠ .type) (v : Operand) : EntryAccepted f v State.reset :=
  ⟨rfl, seenFlag_reset f, fun g _ => seenFlag_reset g, fun h => absurd h hf⟩

/-! ### Periods that `gen` rejects (R124, R127) -/

/-- The kind of the error on a period below 3 (R124, R127). -/
def shortPeriodKind (s : State) : ErrKind :=
  if s.periodLength.toNat < 2 then .frequencyExceedsRate else .degenerateWave

/-- With the positivity pass behind it, `gen` reports a period below 3 against the blamed field. -/
theorem generate_of_short_period (op : Opcode) (hz : s.firstZeroField = none) (hP : s.periodLength.toNat < 3) :
    generate true op s =
      s.raise (shortPeriodKind s) (some s.blame) op (s.reg s.blame) (s.reg (otherOfPair s.blame)) := by
  rcases generate_cases true op s with ⟨hb, -⟩ | ⟨f, hf, -⟩ | ⟨-, hshort, hg⟩ | ⟨-, htwo, hg⟩ | ⟨-, hlong, -⟩
  · cases hb
  · cases hz.symm.trans hf
  · rw [hg, shortPeriodKind, if_pos hshort]
  · rw [hg, shortPeriodKind, if_neg (by omega)]
  · omega

/-- The result of an invocation with such a period: the error and the two rates, the blamed one first (R125). -/
theorem invoke_of_short_period (hc : EntriesLead es State.reset c) (hm : c.mode = .config) (hz : c.firstZeroField = none)
    (hP : c.periodLength.toNat < 3) (s : State) :
    invoke es s = .failed (shortPeriodKind c) (some c.blame)
      (if c.blame = .frequency then c.frequency else c.rate) (if c.blame = .frequency then c.rate else c.frequency) := by
  obtain ⟨ws, hwords, hentries⟩ := hc
  have hgen := exec_gen_in_config hm
  rw [generate_of_short_period 0x10 hz hP] at hgen
  rw [invoke_of_error hwords hentries hgen rfl, ← reg_blame, ← reg_otherOfPair_blame]
  rfl

/-! ### The same signal -/

/-- Samples do not change when the first phase moves by whole periods (R163 (b)). -/
theorem cyclicSamples_congr (w : Width) {P k k' : ℕ} (h : k % P = k' % P) (n : ℕ) :
    cyclicSamples w P k n = cyclicSamples w P k' n := by
  unfold cyclicSamples
  refine List.map_congr_left fun j _ => ?_
  rw [Nat.add_mod, h, ← Nat.add_mod]

/-- Everything the result of an invocation reads of a configuration that passes the positivity pass. -/
structure SameSignal (c d : State) : Prop where
  frequency : c.frequency = d.frequency
  rate : c.rate = d.rate
  blame : c.blame = d.blame
  width : c.width = d.width
  count : c.outputCount c.periodLength = d.outputCount d.periodLength
  skip : c.skip.toNat % c.periodLength.toNat = d.skip.toNat % c.periodLength.toNat

theorem SameSignal.periodLength (h : SameSignal c d) : c.periodLength = d.periodLength := by
  rw [State.periodLength, State.periodLength, h.rate, h.frequency]

/-- Invocations that configure the same signal have one result, an error of `gen` included (R163). -/
theorem invoke_eq_of_sameSignal (hc : EntriesLead es State.reset c) (hd : EntriesLead es' State.reset d)
    (hmc : c.mode = .config) (hmd : d.mode = .config) (hzc : c.firstZeroField = none) (hzd : d.firstZeroField = none)
    (h : SameSignal c d) (s : State) : invoke es s = invoke es' s := by
  have hperiod := h.periodLength
  by_cases hP : c.periodLength.toNat < 3
  · rw [invoke_of_short_period hc hmc hzc hP, invoke_of_short_period hd hmd hzd (hperiod ▸ hP), shortPeriodKind,
      shortPeriodKind, hperiod, h.blame, h.frequency, h.rate]
  · have hlong : 3 ≤ c.periodLength.toNat := not_lt.mp hP
    obtain ⟨ws, hwords, hentries⟩ := hc
    obtain ⟨ws', hwords', hentries'⟩ := hd
    rw [invoke_of_accepts hwords hentries hmc (genAccepts_of_checks hzc hlong),
      invoke_of_accepts hwords' hentries' hmd (genAccepts_of_checks hzd (hperiod ▸ hlong)),
      cyclicSamples_congr c.width h.skip, h.count, h.width, hperiod]

/-! ### `frequency`, `rate`, `skip`, and one of `repeats` and `len` -/

/-- The block after reset with these four fields defined in this order, the last being `g`. -/
def signalConfig (f r k : Operand) (g : ConfigField) (v : Operand) : State :=
  defineField g v (defineField .skip k (defineField .rate r (defineField .frequency f State.reset)))

/-- The four entries. -/
def signalEntries (f r k : ℕ) (g : ConfigField) (v : ℕ) : List SourceEntry :=
  [numericEntry .frequency f, numericEntry .rate r, numericEntry .skip k, numericEntry g v]

/-- COUNT as the last of the four entries gives it: `len` verbatim, `repeats` in periods (R128). -/
def signalCount (P : ℕ) (g : ConfigField) (v : ℕ) : ℕ := if g = .len then v else P * v

section Signal

variable {g : ConfigField} (hg : g = .repeats ∨ g = .len) {f r k v : Operand}
include hg

theorem signalConfig_mode : (signalConfig f r k g v).mode = .config := by
  rcases hg with rfl | rfl <;> rfl

theorem signalConfig_frequency : (signalConfig f r k g v).frequency = f := by
  rcases hg with rfl | rfl <;> rfl

theorem signalConfig_rate : (signalConfig f r k g v).rate = r := by
  rcases hg with rfl | rfl <;> rfl

theorem signalConfig_skip : (signalConfig f r k g v).skip = k := by
  rcases hg with rfl | rfl <;> rfl

theorem signalConfig_width : (signalConfig f r k g v).width = .w16 := by
  rcases hg with rfl | rfl <;> rfl

/-- Both rates are supplied and `rate` is the later (R125). -/
theorem signalConfig_blame : (signalConfig f r k g v).blame = .rate := by
  have hlast : (signalConfig f r k g v).frLast = 1 := by rcases hg with rfl | rfl <;> rfl
  rw [blame_of_pair (by simp [signalConfig]) (by simp [signalConfig]), hlast]
  rfl

theorem signalConfig_periodLength_toNat : (signalConfig f r k g v).periodLength.toNat = r.toNat / f.toNat := by
  rw [periodLength_toNat, signalConfig_rate hg, signalConfig_frequency hg]

theorem signalConfig_outputCount_toNat :
    ((signalConfig f r k g v).outputCount (signalConfig f r k g v).periodLength).toNat =
      signalCount (r.toNat / f.toNat) g v.toNat := by
  rw [outputCount_toNat, signalConfig_periodLength_toNat hg]
  rcases hg with rfl | rfl <;> simp [signalConfig, signalCount]

/-- With no operand 0 the positivity pass is passed: REPEATS is given, or holds its reset value (R122). -/
theorem signalConfig_firstZeroField (hf : f ≠ 0) (hr : r ≠ 0) (hv : v ≠ 0) :
    (signalConfig f r k g v).firstZeroField = none := by
  rcases hg with rfl | rfl
  · exact firstZeroField_of_nonzero hf hr (by simp [signalConfig]) hv
  · exact firstZeroField_of_nonzero hf hr (fun _ => hv) (show State.reset.repeats ≠ 0 by decide)

/-- Each of the four entries is the first of its field, and only one of `repeats` and `len` is among them. -/
theorem entriesLead_signalConfig {f r k v : ℕ} (hf : f < 2 ^ 32) (hr : r < 2 ^ 32) (hk : k < 2 ^ 32) (hv : v < 2 ^ 32) :
    EntriesLead (signalEntries f r k g v) State.reset
      (signalConfig (BitVec.ofNat 32 f) (BitVec.ofNat 32 r) (BitVec.ofNat 32 k) g (BitVec.ofNat 32 v)) := by
  have hnumeric : g ≠ .type := by rcases hg with rfl | rfl <;> decide
  refine entriesLead_cons (by decide) hf (entryAccepted_reset (by decide) _) <|
    entriesLead_cons (by decide) hr ?_ <| entriesLead_cons (by decide) hk ?_ <|
    entriesLead_cons hnumeric hv ?_ (entriesLead_nil _)
  · simp [entryAccepted_defineField, entryAccepted_reset, FieldsConflict]
  · simp [entryAccepted_defineField, entryAccepted_reset, FieldsConflict]
  · rcases hg with rfl | rfl <;> simp [entryAccepted_defineField, entryAccepted_reset, FieldsConflict]

end Signal

/-- The same COUNT, and SKIP up to whole periods, make the same signal. -/
theorem sameSignal_signalConfig {f r k k' v v' : Operand} {g g' : ConfigField} (hg : g = .repeats ∨ g = .len)
    (hg' : g' = .repeats ∨ g' = .len)
    (hcount : signalCount (r.toNat / f.toNat) g v.toNat = signalCount (r.toNat / f.toNat) g' v'.toNat)
    (hskip : k.toNat % (r.toNat / f.toNat) = k'.toNat % (r.toNat / f.toNat)) :
    SameSignal (signalConfig f r k g v) (signalConfig f r k' g' v') where
  frequency := by rw [signalConfig_frequency hg, signalConfig_frequency hg']
  rate := by rw [signalConfig_rate hg, signalConfig_rate hg']
  blame := by rw [signalConfig_blame hg, signalConfig_blame hg']
  width := by rw [signalConfig_width hg, signalConfig_width hg']
  count := BitVec.eq_of_toNat_eq (by
    rw [signalConfig_outputCount_toNat hg, signalConfig_outputCount_toNat hg', hcount])
  skip := by rw [signalConfig_periodLength_toNat hg, signalConfig_skip hg, signalConfig_skip hg', hskip]

/-- A positive number that an operand holds without loss (R89). -/
def PositiveOperand (x : ℕ) : Prop := 0 < x ∧ x < 2 ^ 32

theorem toNat_operand {x : ℕ} (hx : x < 2 ^ 32) : (BitVec.ofNat 32 x).toNat = x := by
  rw [BitVec.toNat_ofNat, Nat.mod_eq_of_lt hx]

theorem PositiveOperand.ofNat_ne_zero {x : ℕ} (h : PositiveOperand x) : BitVec.ofNat 32 x ≠ 0 := by
  obtain ⟨hpos, hlt⟩ := h
  bv_omega

/-- Two lists of the four entries that agree on the rates, on COUNT, and on SKIP up to whole periods (R163). -/
theorem invoke_signalEntries_congr {f r k k' v v' : ℕ} {g g' : ConfigField} (hg : g = .repeats ∨ g = .len)
    (hg' : g' = .repeats ∨ g' = .len) (hf : PositiveOperand f) (hr : PositiveOperand r) (hk : k < 2 ^ 32)
    (hk' : k' < 2 ^ 32) (hv : PositiveOperand v) (hv' : PositiveOperand v')
    (hcount : signalCount (r / f) g v = signalCount (r / f) g' v') (hskip : k % (r / f) = k' % (r / f)) (s : State) :
    invoke (signalEntries f r k g v) s = invoke (signalEntries f r k' g' v') s := by
  refine invoke_eq_of_sameSignal (entriesLead_signalConfig hg hf.2 hr.2 hk hv.2)
    (entriesLead_signalConfig hg' hf.2 hr.2 hk' hv'.2) (signalConfig_mode hg) (signalConfig_mode hg')
    (signalConfig_firstZeroField hg hf.ofNat_ne_zero hr.ofNat_ne_zero hv.ofNat_ne_zero)
    (signalConfig_firstZeroField hg' hf.ofNat_ne_zero hr.ofNat_ne_zero hv'.ofNat_ne_zero)
    (sameSignal_signalConfig hg hg' ?_ ?_) s
  · rwa [toNat_operand hr.2, toNat_operand hf.2, toNat_operand hv.2, toNat_operand hv'.2]
  · rwa [toNat_operand hr.2, toNat_operand hf.2, toNat_operand hk, toNat_operand hk']

end Sys2Proof.Laws
end

section

open Sys2Proof Sys2Proof.Machine Sys2Proof.Safety Sys2Proof.Laws

/-- Settles O42: every step of a run that is over is an idle slot or a `nak`. -/
theorem finishedRunIsFrozenUntilCleared : Obligations.FinishedRunIsFrozenUntilCleared := by
  intro n s hfin hslots
  obtain ⟨r, hrun⟩ := run_of_finished n ⟨hfin, hslots⟩
  exact ⟨_, hrun, rfl⟩

/-- Settles O49: the general run of `next`, begun at INDEX 0. -/
theorem nthNextFollowsTheClosedForm : Obligations.NthNextFollowsTheClosedForm := by
  intro s n h hm hindex hn
  have hzero : s.index.toNat = 0 := by rw [hindex]; rfl
  have hrun := run_nextSlots n h hm (by omega)
  rwa [hzero, Nat.zero_add] at hrun

/-- Settles O51: `repeats: n` and `len: n * P` give one COUNT, and `k` and `k mod P` one first phase. -/
theorem repeatLengthAndSkipEquivalences : Obligations.RepeatLengthAndSkipEquivalences := by
  intro s f r n k hf hfr hr hn hprod hk
  have hperiod : 0 < r / f := Nat.div_pos hfr hf
  have hf' : PositiveOperand f := ⟨hf, hfr.trans_lt hr⟩
  have hr' : PositiveOperand r := ⟨Nat.lt_of_lt_of_le hf hfr, hr⟩
  have hn' : PositiveOperand n := ⟨hn, (Nat.le_mul_of_pos_right n hperiod).trans_lt hprod⟩
  have hprod' : PositiveOperand (n * (r / f)) := ⟨Nat.mul_pos hn hperiod, hprod⟩
  have hk' : k % (r / f) < 2 ^ 32 := (Nat.mod_le _ _).trans_lt hk
  constructor
  · exact invoke_signalEntries_congr (.inl rfl) (.inr rfl) hf' hr' hk hk hn' hprod' (Nat.mul_comm _ _) rfl s
  · exact invoke_signalEntries_congr (.inl rfl) (.inl rfl) hf' hr' hk hk' hn' hn' rfl (Nat.mod_mod _ _).symm s

/-- Settles O35: what `clear` leaves is the reset state with the host's slots (R161). -/
theorem clearReturnsToTheResetState : Obligations.ClearReturnsToTheResetState := fun s => exec_clear s

end

section
/-!
One presented word against the mode gating table, reserved opcodes included (R85, R86, R179, R193).
-/

namespace Sys2Proof.Laws

open Sys2Proof.Machine Sys2Proof.Safety

variable {s t : State} {w : CommandWord}

/-- A slot that presents a word and leaves `rst` low makes the step issue that word on what is left of the slots (R44). -/
theorem step_eq_issue {p : HostInput} {rest : List HostInput} (hhost : s.host = p :: rest) (hrst : p.rst = false)
    (hvalid : p.cmdValid = true) : step s = issue p.cmd { s with host := rest } := by
  obtain ⟨rst, cmdValid, cmd⟩ := p
  obtain rfl : rst = false := hrst
  obtain rfl : cmdValid = true := hvalid
  have hs : s = { s with host := HostInput.command cmd :: rest } := by
    rw [HostInput.command, ← hhost]
  exact congrArg step hs

/-- A word names a command, or its opcode is reserved (R85, R87). -/
theorem issue_cases (w : CommandWord) (s : State) :
    (∃ i, opcodeOf w = i.opcode ∧ issue w s = exec i s) ∨
    (isReserved (opcodeOf w) = true ∧ issue w s = execReserved (.reserved (opcodeOf w) (operandOf w)) s) := by
  cases hdec : decode w with
  | ok i => exact .inl ⟨i, decode_opcode hdec, by rw [issue, step_present, hdec]⟩
  | error r =>
    have hop := isReserved_of_decode_error hdec
    exact .inr ⟨hop, issue_reserved hop s⟩

/-- The column of the gating table for the reserved opcodes: they raise in MODE CONFIG only (R86). -/
theorem executesIn_of_reserved {op : Opcode} (h : isReserved op = true) (m : Mode) :
    executesIn m op = decide (m = .config) := by
  have hassigned : ∀ i : Instr, op ≠ i.opcode := by
    rintro i rfl
    exact Bool.false_ne_true ((isReserved_opcode i).symm.trans h)
  have hclear : op ≠ 0x1F := hassigned .clear
  have hnext : op ≠ 0x11 := hassigned .next
  rw [executesIn, if_neg hclear, if_neg hnext]

/-- Where the table has `nak`, nothing but the response changes (R193). -/
theorem issue_out (h : executesIn s.mode (opcodeOf w) = false) : issue w s = .next s.respondNak := by
  rcases issue_cases w s with ⟨i, hop, hissue⟩ | ⟨hop, hissue⟩
  · rw [hissue, exec_out (hop ▸ h)]
  · rw [executesIn_of_reserved hop, decide_eq_false_iff_not] at h
    rw [hissue, execReserved_eq, whenMode_out h]

/-- An entry in MODE CONFIG is answered, raising or not (R45). -/
theorem entry_response (f : ConfigField) (op : Opcode) (v : Operand) (s : State) :
    (entry f op v s).response = okResponse := by
  rcases entry_raises_or_defines f op v s with ⟨k, g, o, -, he⟩ | ⟨-, he⟩ <;> rw [he] <;> rfl

/-- So is `gen`. -/
theorem generate_response (b : Bool) (op : Opcode) (s : State) : (generate b op s).response = okResponse := by
  rcases generate_raises_or_arms b op s with ⟨k, f, v, o, -, hg⟩ | ⟨-, -, hg⟩ <;> rw [hg] <;> rfl

/-- A command in a mode that executes it is not answered `nak` (R86). -/
theorem exec_in_response {i : Instr} (hin : executesIn s.mode i.opcode = true) (h : exec i s = .next t) :
    t.response.nak = false := by
  rcases exec_cases h with ⟨hout, -⟩ | ⟨f, v, -, -, rfl⟩ | ⟨-, -, rfl⟩ | ⟨-, -, T, -, -, rfl⟩ | ⟨-, rfl⟩
  · exact absurd (hout.symm.trans hin) (by decide)
  · rw [entry_response]; rfl
  · rw [generate_response]; rfl
  · rfl
  · rfl

/-- Where the table has execute or raise, the word is not answered `nak` (R86). -/
theorem issue_in_response (hin : executesIn s.mode (opcodeOf w) = true) (h : issue w s = .next t) :
    t.response.nak = false := by
  rcases issue_cases w s with ⟨i, hop, hissue⟩ | ⟨hop, hissue⟩
  · exact exec_in_response (hop ▸ hin) (hissue.symm.trans h)
  · rw [executesIn_of_reserved hop, decide_eq_true_eq] at hin
    rw [hissue, execReserved_eq, whenMode_in hin] at h
    obtain rfl := Host.Outcome.next.inj h
    rfl

end Sys2Proof.Laws
end

section
/-!
When each `raise` of the entry commands and of the first checks of `gen` is reached (R180, R182, R184, R187).
-/

namespace Sys2Proof.Laws

open Sys2Proof.Machine Sys2Proof.Safety

variable {f g : ConfigField} {s : State}

/-- The duplicate check comes first, whatever the operand (R176, R180). -/
theorem entry_of_seen (hseen : s.seenFlag f = true) (op : Opcode) (v : Operand) :
    entry f op v s = s.raise .duplicateField (some f) op v (s.reg f) := by
  rcases entry_cases f op v s with ⟨-, he⟩ | ⟨hunseen, -⟩ | ⟨hunseen, -⟩ | ⟨hunseen, -⟩
  · exact he
  all_goals cases hunseen.symm.trans hseen

theorem excludedBy_of_conflict (hconf : FieldsConflict f g) (hseen : s.seenFlag g = true) : s.excludedBy f = some g := by
  rcases hconf with ⟨rfl, rfl⟩ | ⟨rfl, rfl⟩
  · exact if_pos ⟨rfl, hseen⟩
  · rw [State.excludedBy, if_neg (fun h => nomatch h.1), if_pos ⟨rfl, hseen⟩]

/-- The conflict check is next, before the operand is looked at (R176, R184). -/
theorem entry_of_conflict (hunseen : s.seenFlag f = false) (hconf : FieldsConflict f g) (hseen : s.seenFlag g = true)
    (op : Opcode) (v : Operand) : entry f op v s = s.raise .conflictingLenRepeats (some f) op v (s.reg g) := by
  have hex := excludedBy_of_conflict hconf hseen
  rcases entry_cases f op v s with ⟨hset, -⟩ | ⟨-, k, hk, he⟩ | ⟨-, hnone, -⟩ | ⟨-, hnone, -⟩
  · cases hset.symm.trans hunseen
  · obtain rfl := Option.some.inj (hk.symm.trans hex)
    exact he
  all_goals cases hnone.symm.trans hex

/-- The positivity pass stops at the first zero field (R122). -/
theorem firstZeroField_of_first_zero
    (h : (f = .frequency ∧ s.frequency = 0) ∨
      (f = .rate ∧ s.frequency ≠ 0 ∧ s.rate = 0) ∨
      (f = .len ∧ s.frequency ≠ 0 ∧ s.rate ≠ 0 ∧ s.seenFlag .len = true ∧ s.len = 0) ∨
      (f = .repeats ∧ s.frequency ≠ 0 ∧ s.rate ≠ 0 ∧ (s.seenFlag .len = true → s.len ≠ 0) ∧ s.repeats = 0)) :
    s.firstZeroField = some f := by
  unfold State.firstZeroField
  rcases h with ⟨rfl, hfreq⟩ | ⟨rfl, hfreq, hrate⟩ | ⟨rfl, hfreq, hrate, hlen⟩ | ⟨rfl, hfreq, hrate, hlen, hrep⟩
  · rw [if_pos hfreq]
  · rw [if_neg hfreq, if_pos hrate]
  · rw [if_neg hfreq, if_neg hrate, if_pos hlen]
  · rw [if_neg hfreq, if_neg hrate, if_neg (fun ⟨hseen, hzero⟩ => hlen hseen hzero), if_pos hrep]

/-- With the default frequency of this hardware, the positivity pass is the first check of `gen` (R120). -/
theorem generate_of_zero (op : Opcode) (hz : s.firstZeroField = some f) :
    generate true op s = s.raise .nonPositiveValue (some f) op 0 0 := by
  rcases generate_cases true op s with ⟨hb, -⟩ | ⟨k, hk, hg⟩ | ⟨hnone, -⟩ | ⟨hnone, -⟩ | ⟨hnone, -⟩
  · cases hb
  · obtain rfl := Option.some.inj (hk.symm.trans hz)
    exact hg
  all_goals cases hnone.symm.trans hz

/-- Without a default, a missing `frequency` is reported before every other check of `gen` (R121). -/
theorem generate_of_missing_frequency (op : Opcode) (hunseen : s.seenFlag .frequency = false) :
    generate false op s = s.raise .missingRequiredField (some .frequency) op 0 0 :=
  if_pos ⟨rfl, hunseen⟩

/-- With a default, no check of `gen` writes MissingRequiredField (R187). -/
theorem generate_errKind_ne_missing (op : Opcode) (h : s.errKind ≠ .missingRequiredField) :
    (generate true op s).errKind ≠ .missingRequiredField := by
  rcases generate_cases true op s with ⟨hb, -⟩ | ⟨f, -, hg⟩ | ⟨-, -, hg⟩ | ⟨-, -, hg⟩ | ⟨-, -, hg⟩
  · cases hb
  · rw [hg, raise_errKind]; decide
  · rw [hg, raise_errKind]; decide
  · rw [hg, raise_errKind]; decide
  · rwa [hg, arm_errKind]

/-- The bit of SEEN that belongs to a field is its id less 1 (R22). -/
theorem fieldId_toNat (f : ConfigField) : f.id.toNat = f.bit + 1 := by cases f <;> rfl

end Sys2Proof.Laws
end

section

open Sys2Proof Sys2Proof.Machine Sys2Proof.Safety Sys2Proof.Laws

/-- Settles O10: the decoder rejects the word, and its effect is gated to MODE CONFIG. -/
theorem reservedOpcodeRaisesUnknownField : Obligations.ReservedOpcodeRaisesUnknownField := by
  intro s p rest hhost hrst hvalid hop
  rw [step_eq_issue hhost hrst hvalid, issue_reserved hop, execReserved_eq]
  by_cases hm : s.mode = .config
  · rw [if_pos hm, whenMode_in (s := { s with host := rest }) hm, unsetMask_eq]
    rfl
  · rw [if_neg hm, whenMode_out (s := { s with host := rest }) hm]
    rfl

/-- Settles O11: the two halves of the gating table, for commands and reserved opcodes alike. -/
theorem modeGatingFollowsTheTable : Obligations.ModeGatingFollowsTheTable := by
  intro s p rest hhost hrst hvalid
  rw [step_eq_issue hhost hrst hvalid]
  exact ⟨fun hout => issue_out hout, fun hin _ => issue_in_response hin⟩

/-- Settles O26: the four cases are those in which the positivity pass stops. -/
theorem genReportsTheFirstZeroField : Obligations.GenReportsTheFirstZeroField := by
  intro s f hm hzero
  rw [exec_gen_in_config hm, generate_of_zero 0x10 (firstZeroField_of_first_zero hzero)]
  rfl

/-- Settles O27: a rate below twice the frequency makes a period below 2, the first of the short periods. -/
theorem genRejectsPeriodsBelowTwo : Obligations.GenRejectsPeriodsBelowTwo := by
  intro s hm hfreq hrate hlen hrep hshort
  have hz : s.firstZeroField = none := firstZeroField_of_nonzero hfreq hrate hlen hrep
  have hP : s.periodLength.toNat < 2 := by
    rw [periodLength_toNat]
    exact (Nat.div_lt_iff_lt_mul (BitVec.toNat_pos_of_ne_zero hfreq)).mpr hshort
  rw [exec_gen_in_config hm, generate_of_short_period 0x10 hz (by omega), shortPeriodKind, if_pos hP, reg_blame,
    reg_otherOfPair_blame]
  rfl

/-- Settles O31: the check is the first where it is made at all, and `gen` is gated to MODE CONFIG. -/
theorem missingFrequencyIsReportedOnlyWithoutDefault : Obligations.MissingFrequencyIsReportedOnlyWithoutDefault := by
  refine ⟨fun s hunseen => generate_of_missing_frequency 0x10 hunseen, fun s t hkind h => ?_⟩
  rw [exec_gen] at h
  rcases whenMode_next h with ⟨-, hrun⟩ | ⟨-, rfl⟩
  · obtain rfl := Host.Outcome.next.inj hrun
    exact generate_errKind_ne_missing 0x10 hkind
  · exact hkind

/-- Settles O19: the duplicate check is the first of an entry, and the opcode it records is the id of the field. -/
theorem repeatedFieldRaisesDuplicateField : Obligations.RepeatedFieldRaisesDuplicateField := by
  intro f v s hm hseen
  rw [exec_entry_in_config hm, entry_of_seen hseen, entryInstr_opcode]
  rfl

/-- Settles O20: the two orders of the one conflict of R100. -/
theorem lenAndRepeatsExcludeEachOther : Obligations.LenAndRepeatsExcludeEachOther := by
  constructor
  · intro v s hm hunseen hseen
    have hraise := entry_of_conflict hunseen (.inl ⟨rfl, rfl⟩) hseen 0x03 v
    exact (exec_entry_in_config (f := .len) hm).trans (congrArg _ hraise)
  · intro v s hm hunseen hseen
    have hraise := entry_of_conflict hunseen (.inr ⟨rfl, rfl⟩) hseen 0x04 v
    exact (exec_entry_in_config (f := .repeats) hm).trans (congrArg _ hraise)

/-- Settles O55: the lists are the definitions, and the opcodes and SEEN bits are those of the ids. -/
theorem errorCodesAndFieldIdsAreTheListed : Obligations.ErrorCodesAndFieldIdsAreTheListed :=
  ⟨rfl, rfl, rfl, fun f v => ⟨entryInstr_opcode f v, fieldId_toNat f⟩⟩

end

section

/-- Settles O1: the conjuncts are the rows of the table of R211, one line each for the mode and the entry registers, the
generator registers with TABLE (R212), the error record, and the response port; each is a field of the model's reset record. -/
theorem resetStateHoldsTheListedValues : Obligations.ResetStateHoldsTheListedValues :=
  ⟨rfl, rfl, rfl, rfl, rfl, rfl, rfl, rfl, rfl,
    rfl, rfl, rfl, rfl, rfl,
    rfl, rfl, rfl, rfl, rfl,
    rfl⟩

end
